-- ==== Sys2Proof/Word.lean ====
section
/-! DEFINITION. The word types of the machine (spec/00_scope.md R6, spec/10_state.md). -/

namespace Sys2Proof

/-- A byte: a general register, a memory cell, a timer, the immediate `kk` (R10, R28, R62). -/
abbrev Byte := BitVec 8

/-- A 16-bit word: `I`, `pc`, a stack slot, `fault_info`, an opcode (R13, R16, R17, R60). -/
abbrev Word := BitVec 16

/-- A 4-bit field: a register index `x` or `y`, the count `n`, a key index (R62, R188). -/
abbrev Nibble := BitVec 4

/-- The 12-bit address field `nnn` (R62). -/
abbrev Addr12 := BitVec 12

end Sys2Proof
end

