-- ==== Sys2Proof/Config.lean ====
section
/-! DEFINITION. What the spec leaves to the implementation as a free value. (The other named parameter of
the spec, FONT_TABLE, has a default in spec/10_state.md R29 and stands in Machine/Memory.lean.) -/

namespace Sys2Proof

/-- The free values of `RND` (spec/42_register_alu.md R132, decision D19): `Config.rnd k` is draw number `k`.
It has no body, so no proof can depend on a drawn value: a claim holds for every sequence of draws.
DESIGN CHOICE (log 2), safe. -/
opaque Config.rnd : Nat → Byte

end Sys2Proof
end

