-- ==== Sys2Proof/Syntax.lean ====
section
/-! DEFINITION. The instructions: one constructor per row of spec/opcode_table.json, in the table's order
(spec/30_encoding.md R66), with the fields the row has (R61, R62). -/

namespace Sys2Proof

/-- The 35 rows of R66. -/
inductive Instr where
  /-- `00E0` CLS -/
  | cls
  /-- `00EE` RET -/
  | ret
  /-- `0nnn` SYS nnn (never `00E0` or `00EE`: see WellFormed.lean) -/
  | sys (nnn : Addr12)
  /-- `1nnn` JP nnn -/
  | jp (nnn : Addr12)
  /-- `2nnn` CALL nnn -/
  | call (nnn : Addr12)
  /-- `3xkk` SE Vx, kk -/
  | seImm (x : Nibble) (kk : Byte)
  /-- `4xkk` SNE Vx, kk -/
  | sneImm (x : Nibble) (kk : Byte)
  /-- `5xy0` SE Vx, Vy -/
  | seReg (x y : Nibble)
  /-- `6xkk` LD Vx, kk -/
  | ldImm (x : Nibble) (kk : Byte)
  /-- `7xkk` ADD Vx, kk -/
  | addImm (x : Nibble) (kk : Byte)
  /-- `8xy0` LD Vx, Vy -/
  | ldReg (x y : Nibble)
  /-- `8xy1` OR Vx, Vy -/
  | orReg (x y : Nibble)
  /-- `8xy2` AND Vx, Vy -/
  | andReg (x y : Nibble)
  /-- `8xy3` XOR Vx, Vy -/
  | xorReg (x y : Nibble)
  /-- `8xy4` ADD Vx, Vy -/
  | addReg (x y : Nibble)
  /-- `8xy5` SUB Vx, Vy -/
  | sub (x y : Nibble)
  /-- `8xy6` SHR Vx; the pattern has a `y` field that the semantics ignores (R64), kept so that no bit of the
  word is dropped (log 12) -/
  | shr (x y : Nibble)
  /-- `8xy7` SUBN Vx, Vy -/
  | subn (x y : Nibble)
  /-- `8xyE` SHL Vx; `y` as in `shr` -/
  | shl (x y : Nibble)
  /-- `9xy0` SNE Vx, Vy -/
  | sneReg (x y : Nibble)
  /-- `Annn` LD I, nnn -/
  | ldI (nnn : Addr12)
  /-- `Bnnn` JP V0, nnn -/
  | jpV0 (nnn : Addr12)
  /-- `Cxkk` RND Vx, kk -/
  | rnd (x : Nibble) (kk : Byte)
  /-- `Dxyn` DRW Vx, Vy, n -/
  | drw (x y n : Nibble)
  /-- `Ex9E` SKP Vx -/
  | skp (x : Nibble)
  /-- `ExA1` SKNP Vx -/
  | sknp (x : Nibble)
  /-- `Fx07` LD Vx, DT -/
  | ldVxDT (x : Nibble)
  /-- `Fx0A` LD Vx, K -/
  | ldVxK (x : Nibble)
  /-- `Fx15` LD DT, Vx -/
  | ldDTVx (x : Nibble)
  /-- `Fx18` LD ST, Vx -/
  | ldSTVx (x : Nibble)
  /-- `Fx1E` ADD I, Vx -/
  | addI (x : Nibble)
  /-- `Fx29` LD F, Vx -/
  | ldF (x : Nibble)
  /-- `Fx33` LD B, Vx -/
  | ldB (x : Nibble)
  /-- `Fx55` LD [I], Vx -/
  | ldIVx (x : Nibble)
  /-- `Fx65` LD Vx, [I] -/
  | ldVxI (x : Nibble)
  deriving DecidableEq, Repr

/-- The mnemonic the instruction's descriptor carries "for diagnostics/UI" (spec/30_encoding.md R66, R70). -/
def Instr.mnemonic : Instr → String
  | .cls => "CLS"
  | .ret => "RET"
  | .sys _ => "SYS nnn"
  | .jp _ => "JP nnn"
  | .call _ => "CALL nnn"
  | .seImm _ _ => "SE Vx, kk"
  | .sneImm _ _ => "SNE Vx, kk"
  | .seReg _ _ => "SE Vx, Vy"
  | .ldImm _ _ => "LD Vx, kk"
  | .addImm _ _ => "ADD Vx, kk"
  | .ldReg _ _ => "LD Vx, Vy"
  | .orReg _ _ => "OR Vx, Vy"
  | .andReg _ _ => "AND Vx, Vy"
  | .xorReg _ _ => "XOR Vx, Vy"
  | .addReg _ _ => "ADD Vx, Vy"
  | .sub _ _ => "SUB Vx, Vy"
  | .shr _ _ => "SHR Vx"
  | .subn _ _ => "SUBN Vx, Vy"
  | .shl _ _ => "SHL Vx"
  | .sneReg _ _ => "SNE Vx, Vy"
  | .ldI _ => "LD I, nnn"
  | .jpV0 _ => "JP V0, nnn"
  | .rnd _ _ => "RND Vx, kk"
  | .drw _ _ _ => "DRW Vx, Vy, n"
  | .skp _ => "SKP Vx"
  | .sknp _ => "SKNP Vx"
  | .ldVxDT _ => "LD Vx, DT"
  | .ldVxK _ => "LD Vx, K"
  | .ldDTVx _ => "LD DT, Vx"
  | .ldSTVx _ => "LD ST, Vx"
  | .addI _ => "ADD I, Vx"
  | .ldF _ => "LD F, Vx"
  | .ldB _ => "LD B, Vx"
  | .ldIVx _ => "LD [I], Vx"
  | .ldVxI _ => "LD Vx, [I]"

end Sys2Proof
end

