-- ==== Sys2Proof/Decode.lean ====
section
/-! DEFINITION. The decoder (spec/30_encoding.md R60 to R69), the encoder (R72), the opcode table of R66 as rows of
mask and match in priority order, and the host's entry `decodeTableWord`. -/

namespace Sys2Proof

/-- The one way decoding fails (R63): no pattern matches `op`. -/
inductive DecodeError where
  /-- Raised by `decode` for a word of R67; the machine then takes the InvalidOpcode fault. Safe: as the spec says. -/
  | invalidOpcode (op : Word)
  deriving DecidableEq, Repr

/-! ## The fields of an opcode (R61, R62) -/

/-- `op[15:12]`, the major opcode. -/
def opMajor (op : Word) : Nibble := op.extractLsb' 12 4
/-- `x = op[11:8]`. -/
def opX (op : Word) : Nibble := op.extractLsb' 8 4
/-- `y = op[7:4]`. -/
def opY (op : Word) : Nibble := op.extractLsb' 4 4
/-- `n = op[3:0]`. -/
def opN (op : Word) : Nibble := op.extractLsb' 0 4
/-- `kk = op[7:0]`. -/
def opKK (op : Word) : Byte := op.extractLsb' 0 8
/-- `nnn = op[11:0]`. -/
def opNNN (op : Word) : Addr12 := op.extractLsb' 0 12

/-! ## Decoding by major opcode (R65) -/

/-- Major opcode 0: CLS and RET take priority over SYS (R63, R65). -/
def decode0 (op : Word) : Instr :=
  if op = 0x00E0 then .cls
  else if op = 0x00EE then .ret
  else .sys (opNNN op)

/-- Major opcode 8: selected by `op[3:0]` (R65). -/
def decode8 (op : Word) : Except DecodeError Instr :=
  match (opN op).toNat with
  | 0x0 => .ok (.ldReg (opX op) (opY op))
  | 0x1 => .ok (.orReg (opX op) (opY op))
  | 0x2 => .ok (.andReg (opX op) (opY op))
  | 0x3 => .ok (.xorReg (opX op) (opY op))
  | 0x4 => .ok (.addReg (opX op) (opY op))
  | 0x5 => .ok (.sub (opX op) (opY op))
  | 0x6 => .ok (.shr (opX op) (opY op))
  | 0x7 => .ok (.subn (opX op) (opY op))
  | 0xE => .ok (.shl (opX op) (opY op))
  | _ => .error (.invalidOpcode op)

/-- Major opcode E: selected by `op[7:0]` (R65). -/
def decodeE (op : Word) : Except DecodeError Instr :=
  match (opKK op).toNat with
  | 0x9E => .ok (.skp (opX op))
  | 0xA1 => .ok (.sknp (opX op))
  | _ => .error (.invalidOpcode op)

/-- Major opcode F: selected by `op[7:0]` (R65). -/
def decodeF (op : Word) : Except DecodeError Instr :=
  match (opKK op).toNat with
  | 0x07 => .ok (.ldVxDT (opX op))
  | 0x0A => .ok (.ldVxK (opX op))
  | 0x15 => .ok (.ldDTVx (opX op))
  | 0x18 => .ok (.ldSTVx (opX op))
  | 0x1E => .ok (.addI (opX op))
  | 0x29 => .ok (.ldF (opX op))
  | 0x33 => .ok (.ldB (opX op))
  | 0x55 => .ok (.ldIVx (opX op))
  | 0x65 => .ok (.ldVxI (opX op))
  | _ => .error (.invalidOpcode op)

/-- Major opcodes 5 and 9: the low nibble must be 0 (R65, R67). -/
def decodeXY0 (op : Word) (i : Instr) : Except DecodeError Instr :=
  if opN op = 0 then .ok i else .error (.invalidOpcode op)

/-- `Decode(op)` of R63 and R65: the unique instruction whose pattern matches, or InvalidOpcode. -/
def decode (op : Word) : Except DecodeError Instr :=
  match (opMajor op).toNat with
  | 0x0 => .ok (decode0 op)
  | 0x1 => .ok (.jp (opNNN op))
  | 0x2 => .ok (.call (opNNN op))
  | 0x3 => .ok (.seImm (opX op) (opKK op))
  | 0x4 => .ok (.sneImm (opX op) (opKK op))
  | 0x5 => decodeXY0 op (.seReg (opX op) (opY op))
  | 0x6 => .ok (.ldImm (opX op) (opKK op))
  | 0x7 => .ok (.addImm (opX op) (opKK op))
  | 0x8 => decode8 op
  | 0x9 => decodeXY0 op (.sneReg (opX op) (opY op))
  | 0xA => .ok (.ldI (opNNN op))
  | 0xB => .ok (.jpV0 (opNNN op))
  | 0xC => .ok (.rnd (opX op) (opKK op))
  | 0xD => .ok (.drw (opX op) (opY op) (opN op))
  | 0xE => decodeE op
  | _ => decodeF op

/-- An opcode from its two bytes, big-endian: the byte at the lower address is `op[15:8]`
(spec/20_memory.md R50). -/
def opcodeOfBytes (hi lo : Byte) : Word := hi ++ lo

/-- The decoder on the two bytes of an instruction as memory holds them (R50, R60). -/
def decodeBytes (hi lo : Byte) : Except DecodeError Instr := decode (opcodeOfBytes hi lo)

/-! ## Encoding (R72): the match value of the row with the fields at their positions -/

/-- Format NNN (R61). -/
def encNNN (major : Nibble) (nnn : Addr12) : Word := major ++ nnn
/-- Format XKK (R61). -/
def encXKK (major x : Nibble) (kk : Byte) : Word := major ++ x ++ kk
/-- Formats XY and XYN (R61). -/
def encXYN (major x y n : Nibble) : Word := major ++ x ++ y ++ n

/-- The word of an instruction (R66, R72). -/
def encode : Instr → Word
  | .cls => 0x00E0
  | .ret => 0x00EE
  | .sys nnn => encNNN 0x0 nnn
  | .jp nnn => encNNN 0x1 nnn
  | .call nnn => encNNN 0x2 nnn
  | .seImm x kk => encXKK 0x3 x kk
  | .sneImm x kk => encXKK 0x4 x kk
  | .seReg x y => encXYN 0x5 x y 0x0
  | .ldImm x kk => encXKK 0x6 x kk
  | .addImm x kk => encXKK 0x7 x kk
  | .ldReg x y => encXYN 0x8 x y 0x0
  | .orReg x y => encXYN 0x8 x y 0x1
  | .andReg x y => encXYN 0x8 x y 0x2
  | .xorReg x y => encXYN 0x8 x y 0x3
  | .addReg x y => encXYN 0x8 x y 0x4
  | .sub x y => encXYN 0x8 x y 0x5
  | .shr x y => encXYN 0x8 x y 0x6
  | .subn x y => encXYN 0x8 x y 0x7
  | .shl x y => encXYN 0x8 x y 0xE
  | .sneReg x y => encXYN 0x9 x y 0x0
  | .ldI nnn => encNNN 0xA nnn
  | .jpV0 nnn => encNNN 0xB nnn
  | .rnd x kk => encXKK 0xC x kk
  | .drw x y n => encXYN 0xD x y n
  | .skp x => encXKK 0xE x 0x9E
  | .sknp x => encXKK 0xE x 0xA1
  | .ldVxDT x => encXKK 0xF x 0x07
  | .ldVxK x => encXKK 0xF x 0x0A
  | .ldDTVx x => encXKK 0xF x 0x15
  | .ldSTVx x => encXKK 0xF x 0x18
  | .addI x => encXKK 0xF x 0x1E
  | .ldF x => encXKK 0xF x 0x29
  | .ldB x => encXKK 0xF x 0x33
  | .ldIVx x => encXKK 0xF x 0x55
  | .ldVxI x => encXKK 0xF x 0x65

/-- The byte at the lower address, `op[15:8]` (R50, R72). -/
def opHi (op : Word) : Byte := op.extractLsb' 8 8
/-- The byte at the higher address, `op[7:0]` (R50, R72). -/
def opLo (op : Word) : Byte := op.extractLsb' 0 8

/-! ## The opcode table of R66 -/

/-- One row of R66: `op` matches when `op AND mask = pattern` (R63), and then means `build op`. -/
structure OpcodeRow where
  mask : Word
  pattern : Word
  build : Word → Instr

/-- Rows 1 to 10 of R66, in priority order. -/
def opcodeRowsA : List OpcodeRow :=
  [ ⟨0xFFFF, 0x00E0, fun _ => .cls⟩,
    ⟨0xFFFF, 0x00EE, fun _ => .ret⟩,
    ⟨0xF000, 0x0000, fun op => .sys (opNNN op)⟩,
    ⟨0xF000, 0x1000, fun op => .jp (opNNN op)⟩,
    ⟨0xF000, 0x2000, fun op => .call (opNNN op)⟩,
    ⟨0xF000, 0x3000, fun op => .seImm (opX op) (opKK op)⟩,
    ⟨0xF000, 0x4000, fun op => .sneImm (opX op) (opKK op)⟩,
    ⟨0xF00F, 0x5000, fun op => .seReg (opX op) (opY op)⟩,
    ⟨0xF000, 0x6000, fun op => .ldImm (opX op) (opKK op)⟩,
    ⟨0xF000, 0x7000, fun op => .addImm (opX op) (opKK op)⟩ ]

/-- Rows 11 to 20 of R66. -/
def opcodeRowsB : List OpcodeRow :=
  [ ⟨0xF00F, 0x8000, fun op => .ldReg (opX op) (opY op)⟩,
    ⟨0xF00F, 0x8001, fun op => .orReg (opX op) (opY op)⟩,
    ⟨0xF00F, 0x8002, fun op => .andReg (opX op) (opY op)⟩,
    ⟨0xF00F, 0x8003, fun op => .xorReg (opX op) (opY op)⟩,
    ⟨0xF00F, 0x8004, fun op => .addReg (opX op) (opY op)⟩,
    ⟨0xF00F, 0x8005, fun op => .sub (opX op) (opY op)⟩,
    ⟨0xF00F, 0x8006, fun op => .shr (opX op) (opY op)⟩,
    ⟨0xF00F, 0x8007, fun op => .subn (opX op) (opY op)⟩,
    ⟨0xF00F, 0x800E, fun op => .shl (opX op) (opY op)⟩,
    ⟨0xF00F, 0x9000, fun op => .sneReg (opX op) (opY op)⟩ ]

/-- Rows 21 to 35 of R66. -/
def opcodeRowsC : List OpcodeRow :=
  [ ⟨0xF000, 0xA000, fun op => .ldI (opNNN op)⟩,
    ⟨0xF000, 0xB000, fun op => .jpV0 (opNNN op)⟩,
    ⟨0xF000, 0xC000, fun op => .rnd (opX op) (opKK op)⟩,
    ⟨0xF000, 0xD000, fun op => .drw (opX op) (opY op) (opN op)⟩,
    ⟨0xF0FF, 0xE09E, fun op => .skp (opX op)⟩,
    ⟨0xF0FF, 0xE0A1, fun op => .sknp (opX op)⟩,
    ⟨0xF0FF, 0xF007, fun op => .ldVxDT (opX op)⟩,
    ⟨0xF0FF, 0xF00A, fun op => .ldVxK (opX op)⟩,
    ⟨0xF0FF, 0xF015, fun op => .ldDTVx (opX op)⟩,
    ⟨0xF0FF, 0xF018, fun op => .ldSTVx (opX op)⟩,
    ⟨0xF0FF, 0xF01E, fun op => .addI (opX op)⟩,
    ⟨0xF0FF, 0xF029, fun op => .ldF (opX op)⟩,
    ⟨0xF0FF, 0xF033, fun op => .ldB (opX op)⟩,
    ⟨0xF0FF, 0xF055, fun op => .ldIVx (opX op)⟩,
    ⟨0xF0FF, 0xF065, fun op => .ldVxI (opX op)⟩ ]

/-- The 35 rows of R66, in decoder priority order. -/
def opcodeTable : List OpcodeRow := opcodeRowsA ++ opcodeRowsB ++ opcodeRowsC

/-- Decoding as R63 words it: the first row of the table, in priority order, whose masked bits match. -/
def decodeByTable (op : Word) : Except DecodeError Instr :=
  match opcodeTable.find? (fun r => op &&& r.mask == r.pattern) with
  | some r => .ok (r.build op)
  | none => .error (.invalidOpcode op)

/-! ## The host's entry -/

/-- The instruction the decoder reads from the two bytes of the word `w`, high byte first (R50, R60). -/
def decodeTableWord (nbits w : Nat) : Option Instr :=
  let op : Word := BitVec.ofNat 16 (w % 2 ^ nbits)
  match decodeBytes (opHi op) (opLo op) with
  | .ok i => some i
  | .error _ => none

end Sys2Proof
end

