-- ==== Sys2Proof/Machine/Font.lean ====
section
/-! DEFINITION. `FONT_TABLE`, a named parameter of the model (spec/00_scope.md R3, spec/10_state.md R29, R31; D2), and
its default. -/

namespace Sys2Proof.Machine

/-- `FONT_TABLE`: 80 bytes, sixteen five-byte glyphs, digits 0 to F, top row first (R29). -/
abbrev FontTable := Vector Byte 80

/-- The default glyphs of R29, digit by digit. -/
def defaultGlyphs : List Byte :=
  [0xF0, 0x90, 0x90, 0x90, 0xF0] ++ [0x20, 0x60, 0x20, 0x20, 0x70] ++
  [0xF0, 0x10, 0xF0, 0x80, 0xF0] ++ [0xF0, 0x10, 0xF0, 0x10, 0xF0] ++
  [0x90, 0x90, 0xF0, 0x10, 0x10] ++ [0xF0, 0x80, 0xF0, 0x10, 0xF0] ++
  [0xF0, 0x80, 0xF0, 0x90, 0xF0] ++ [0xF0, 0x10, 0x20, 0x40, 0x40] ++
  [0xF0, 0x90, 0xF0, 0x90, 0xF0] ++ [0xF0, 0x90, 0xF0, 0x10, 0xF0] ++
  [0xF0, 0x90, 0xF0, 0x90, 0x90] ++ [0xE0, 0x90, 0xE0, 0x90, 0xE0] ++
  [0xF0, 0x80, 0x80, 0x80, 0xF0] ++ [0xE0, 0x90, 0x90, 0x90, 0xE0] ++
  [0xF0, 0x80, 0xF0, 0x80, 0xF0] ++ [0xF0, 0x80, 0xF0, 0x80, 0x80]

/-- The default of the parameter (R29, D2; PRESUMED from general knowledge by the spec itself, G3; log 3). A claim that
must not depend on it is one over every `FontTable`. -/
def defaultFont : FontTable := ⟨defaultGlyphs.toArray, by decide⟩

end Sys2Proof.Machine
end

