-- ==== Sys2Proof/Machine/State.lean ====
section
/-! DEFINITION. The state of the machine (spec/10_state.md), its faults, the host's events, the reset state. -/

namespace Sys2Proof.Machine

/-- Memory: the cells that differ from the reset contents (R30, R41), addresses strictly rising. What an
unlisted address reads as is `resetByte` of Machine/Memory.lean, which depends on `FONT_TABLE` (log 20). -/
abbrev Memory := List Host.Cell

/-- The display: `disp[y][x]`, 32 rows of 64 one-bit pixels, 1 = on (R18). -/
abbrev Display := Vector (Vector Bool 64) 32

/-- The execution state (R23). -/
inductive Fsm where
  /-- The state after reset; ticks like `running` (R87, D6). -/
  | idle
  /-- The next `cpu_tick` performs a cycle. -/
  | running
  /-- `cpu_tick` is a no-op until a key-press event (R90, R164). -/
  | awaitingKey
  /-- `cpu_tick` is a no-op until `reset` (R90, R177). -/
  | halted
  deriving DecidableEq, Repr

/-- The values `fault_cause` takes (R24); its 3-bit code is `FaultCause.code` of Machine/Ops.lean. -/
inductive FaultCause where
  | none
  | illegalAccess
  | stackOverflow
  | stackUnderflow
  | invalidOpcode
  deriving DecidableEq, Repr

/-- A cycle fault, with what it carries (R170 to R174). It is an exception whose entry the spec describes, so it
is taken, by `State.enterFault`, and ends in a next state. -/
inductive CycleFault where
  /-- R171: fetch, DRW, LD Vx,[I], LD B, LD [I]; `addr` is the first failing address. -/
  | illegalAccess (addr : Nat)
  /-- R172: CALL at depth 16. -/
  | stackOverflow
  /-- R173: RET at depth 0. -/
  | stackUnderflow
  /-- R174: no pattern matches, or SYS. -/
  | invalidOpcode (op : Word)
  deriving DecidableEq, Repr

/-- The events the host can deliver (spec/00_scope.md R4). -/
inductive Event where
  /-- The Execution Engine's `tick()` (R80). -/
  | cpuTick
  /-- The Timers' `tick()`, 60 Hz (R185). -/
  | timerTick
  /-- `setKey(index, pressed)`; the interface carries four bits (R188, D34). -/
  | setKey (index : Nibble) (pressed : Bool)
  /-- The renderer consumes the draw-flag (R191). -/
  | ackDraw
  /-- `loadGame(bytes)` (R203). -/
  | load (bytes : List Byte)
  /-- `reset()` (R200). -/
  | reset
  deriving DecidableEq, Repr

/-- What an event answers its caller (R80, R170, R176, R203). -/
inductive Response where
  | ok
  /-- A cycle fault, with the cause and the info it latched (R176). -/
  | error (cause : FaultCause) (info : Word)
  /-- The payload of `load` exceeds RAM (R179, R203). -/
  | invalidRom
  deriving DecidableEq, Repr

/-- Reasons a step could stop without a next state. The spec gives none: every error of the machine has an entry
the spec describes (R176) or a response (R179), so this type has no constructor (log 5), and nobody raises it.
Safe: the model never stops where the spec goes on. -/
inductive Fault where
  deriving DecidableEq, Repr

/-- Reasons the model could give an instruction no meaning. -/
inductive Refusal where
  /-- Raised by an arm of `exec` for an instruction not modelled yet. No arm raises it now. Safe. -/
  | notModelled (mnemonic : String)
  deriving DecidableEq, Repr

/-- The whole state of the machine (10_state.md, head and R27), and three fields of the model's own. -/
structure State where
  /-- `V[0..15]` (R10); `V[15]` is also the flag register (R12). -/
  v : Vector Byte 16
  /-- `I` (R16). -/
  i : Word
  /-- `pc` (R13). -/
  pc : Word
  /-- `stack[0..15]` (R17). -/
  stack : Vector Word 16
  /-- `sp`, the depth 0 to 16 (R17). -/
  sp : Fin 17
  /-- `mem[0x000..0xFFF]` (R28). -/
  mem : Memory
  /-- `disp[0..31][0..63]` (R18). -/
  disp : Display
  /-- `DT` (R19). -/
  dt : Byte
  /-- `ST` (R20). -/
  st : Byte
  /-- `key[0..15]`, 1 = pressed (R21). -/
  key : Vector Bool 16
  /-- `fsm` (R23). -/
  fsm : Fsm
  /-- `fault_cause` (R24). -/
  faultCause : FaultCause
  /-- `fault_info` (R24). -/
  faultInfo : Word
  /-- `draw_flag` (R25). -/
  drawFlag : Bool
  /-- `wait_x` (R26). -/
  waitX : Nibble
  /-- THE PARAMETER `FONT_TABLE` (R3, R29, R31), no state of the spec: no step changes it, so that a statement over
  every state is one over every `FONT_TABLE` (log 3). -/
  fontTable : FontTable
  /-- THE MODEL'S OWN (log 2): how many RND draws have been made. The next draw is `Config.rnd draws`. -/
  draws : Nat
  /-- THE MODEL'S OWN (log 1): the host's events not yet delivered, oldest first. It carries the free schedule of
  R5. When it is empty the next event is a `cpu_tick`. -/
  events : List Event
  deriving DecidableEq, Repr

/-- The state after `reset`, equally that of a freshly constructed machine, with the parameter `FONT_TABLE` (R29, R30,
R200, R201). `draws` and `events` are the model's own, and their values here a DESIGN CHOICE (log 1, log 2). -/
def State.resetWith (font : FontTable) : State where
  v := Vector.replicate 16 0x00
  i := 0x0000
  pc := 0x0200
  stack := Vector.replicate 16 0x0000
  sp := 0
  mem := []
  disp := Vector.replicate 32 (Vector.replicate 64 false)
  dt := 0x00
  st := 0x00
  key := Vector.replicate 16 false
  fsm := .idle
  faultCause := .none
  faultInfo := 0x0000
  drawFlag := false
  waitX := 0x0
  fontTable := font
  draws := 0
  events := []

/-- The state after `reset` with `FONT_TABLE` at its default (R29, R30). -/
def State.reset : State := State.resetWith defaultFont

/-- What one step answers: the host's three outcomes. -/
abbrev StepResult := Host.Outcome State Fault Refusal

end Sys2Proof.Machine
end

