-- ==== Sys2Proof/Machine/Memory.lean ====
section
/-! DEFINITION. Memory: the reset contents, the read and the write of one byte, the canonical form, and the four
regions of spec/20_memory.md R41. -/

namespace Sys2Proof.Machine

/-- The byte `reset` leaves at `a` under the `FONT_TABLE` `f`, which is what an unlisted address reads as (R29, R30,
R41; log 20). -/
def resetByte (f : FontTable) (a : Nat) : Byte :=
  if h : 0x050 ≤ a ∧ a ≤ 0x09F then f[a - 0x050] else 0x00

/-- `mem[a]`. -/
def Memory.read (f : FontTable) : Memory → Nat → Byte
  | [], a => resetByte f a
  | (k, b) :: m, a => if k = a then b else Memory.read f m a

/-- The memory without a cell listed at `a`. -/
def Memory.erase (m : Memory) (a : Nat) : Memory := m.filter fun c => c.1 != a

/-- The memory with the cell `(a, b)` listed at its place in the order. -/
def Memory.place : Memory → Nat → Byte → Memory
  | [], a, b => [(a, b)]
  | (k, c) :: m, a, b => if a < k then (a, b) :: (k, c) :: m else (k, c) :: Memory.place m a b

/-- `mem[a] <- b`, keeping the canonical form: a cell that holds what an unlisted address reads as is not listed. -/
def Memory.write (f : FontTable) (m : Memory) (a : Nat) (b : Byte) : Memory :=
  if b = resetByte f a then Memory.erase m a else Memory.place (Memory.erase m a) a b

/-- Writes `bs` at `a`, `a+1`, ... in ascending order. -/
def Memory.writeBytes (f : FontTable) : Memory → Nat → List Byte → Memory
  | m, _, [] => m
  | m, a, b :: bs => Memory.writeBytes f (Memory.write f m a b) (a + 1) bs

/-- Every listed address is at least `lo`, and addresses rise strictly. -/
def Memory.risingFrom : Nat → Memory → Bool
  | _, [] => true
  | lo, (k, _) :: m => decide (lo ≤ k) && Memory.risingFrom (k + 1) m

/-- No cell is listed that holds what an unlisted address reads as. -/
def Memory.noReset (f : FontTable) (m : Memory) : Bool := m.all fun c => c.2 != resetByte f c.1

/-- The canonical form: addresses strictly rising, no cell equal to what an unlisted address reads as. -/
def Memory.wf (f : FontTable) (m : Memory) : Bool := Memory.risingFrom 0 m && Memory.noReset f m

/-- Only RAM is listed: the reserved and font ranges hold their reset contents (R43, R32 b), and nothing lies
above 0xFFF (R40). -/
def Memory.onlyRam (m : Memory) : Bool := m.all fun c => decide (0x200 ≤ c.1 ∧ c.1 ≤ 0xFFF)

/-- The four regions of R41. -/
inductive Region where
  | reservedLow
  | font
  | reservedHigh
  | ram
  deriving DecidableEq, Repr

/-- The region of an address, or none outside the address space (R40, R41). -/
def regionOf (a : Nat) : Option Region :=
  if a ≤ 0x04F then some .reservedLow
  else if a ≤ 0x09F then some .font
  else if a ≤ 0x1FF then some .reservedHigh
  else if a ≤ 0xFFF then some .ram
  else none

/-- A program may read every region (R41, R46). -/
def readable (a : Nat) : Bool := (regionOf a).isSome

/-- A program may write RAM only (R41, R43, R47). -/
def writable (a : Nat) : Bool := regionOf a == some .ram

end Sys2Proof.Machine
end

