-- ==== Sys2Proof/Machine/Ops.lean ====
section
/-! DEFINITION. The named operations over the state: accessors, the memory primitives, the stack, fetch, one cycle,
and taking a fault. -/

namespace Sys2Proof.Machine

/-! ## Registers, timers, keys (R7) -/

/-- `V[x]` (R11). -/
def State.getV (s : State) (x : Nibble) : Byte := s.v[x.toNat]
/-- `V[x] <- b` (R11). -/
def State.setV (s : State) (x : Nibble) (b : Byte) : State := { s with v := s.v.set x.toNat b }
/-- `I <- a` (R16). -/
def State.setI (s : State) (a : Word) : State := { s with i := a }
/-- `pc <- a` (R13). -/
def State.setPc (s : State) (a : Word) : State := { s with pc := a }
/-- `mem` replaced. -/
def State.setMem (s : State) (m : Memory) : State := { s with mem := m }
/-- `disp` replaced. -/
def State.setDisp (s : State) (d : Display) : State := { s with disp := d }
/-- `DT <- b` (R19). -/
def State.setDT (s : State) (b : Byte) : State := { s with dt := b }
/-- `ST <- b` (R20). -/
def State.setST (s : State) (b : Byte) : State := { s with st := b }
/-- `key[k]` (R21). -/
def State.getKey (s : State) (k : Nibble) : Bool := s.key[k.toNat]
/-- `key[k] <- p` (R188). -/
def State.setKeyLatch (s : State) (k : Nibble) (p : Bool) : State := { s with key := s.key.set k.toNat p }
/-- `fsm <- f` (R23). -/
def State.setFsm (s : State) (f : Fsm) : State := { s with fsm := f }
/-- `draw_flag <- b` (R25). -/
def State.setDrawFlag (s : State) (b : Bool) : State := { s with drawFlag := b }
/-- `wait_x <- x` (R26). -/
def State.setWaitX (s : State) (x : Nibble) : State := { s with waitX := x }
/-- The next draw has been made (log 2). -/
def State.nextDraw (s : State) : State := { s with draws := s.draws + 1 }
/-- The host's undelivered events replaced (log 1). -/
def State.setEvents (s : State) (es : List Event) : State := { s with events := es }

/-- Writes `bs` to `V[k]`, `V[k+1]`, ... in ascending order (R146). -/
def State.setVs (s : State) : Nat → List Byte → State
  | _, [] => s
  | k, b :: bs => State.setVs (s.setV (BitVec.ofNat 4 k) b) (k + 1) bs

/-- `V[0]` to `V[x]` inclusive, `x + 1` bytes (R145). -/
def State.firstVs (s : State) (x : Nibble) : List Byte := s.v.toList.take (x.toNat + 1)

/-! ## Memory primitives (20_memory.md) -/

/-- `mem[a]` (R28), under the state's `FONT_TABLE`. -/
def State.byteAt (s : State) (a : Nat) : Byte := Memory.read s.fontTable s.mem a

/-- `MemRead(a, 1)` (R46): legal in 0x000 to 0xFFF; `a` is a natural number, never wrapped (R48). -/
def State.memRead (s : State) (a : Nat) : Except CycleFault Byte :=
  if readable a then .ok (s.byteAt a) else .error (.illegalAccess a)

/-- `MemWrite(a, 1, b)` (R47): legal in 0x200 to 0xFFF (R43). -/
def State.memWrite (s : State) (a : Nat) (b : Byte) : Except CycleFault State :=
  if writable a then .ok (s.setMem (Memory.write s.fontTable s.mem a b)) else .error (.illegalAccess a)

/-- `k` single-byte reads at `a`, `a+1`, ... in ascending order (R44, R175). -/
def State.readBytes (s : State) : Nat → Nat → Except CycleFault (List Byte)
  | _, 0 => .ok []
  | a, k + 1 =>
    match s.memRead a with
    | .error e => .error e
    | .ok b =>
      match State.readBytes s (a + 1) k with
      | .error e => .error e
      | .ok bs => .ok (b :: bs)

/-- Single-byte writes of `bs` at `a`, `a+1`, ... in ascending order (R44, R175). -/
def State.storeBytes (s : State) : Nat → List Byte → Except CycleFault State
  | _, [] => .ok s
  | a, b :: bs =>
    match s.memWrite a b with
    | .error e => .error e
    | .ok t => State.storeBytes t (a + 1) bs

/-! ## The stack (41_control_flow.md) -/

/-- `Push(a)` (R100). -/
def State.push (s : State) (a : Word) : Except CycleFault State :=
  if h : s.sp.val < 16 then
    .ok { s with stack := s.stack.set s.sp.val a h, sp := ⟨s.sp.val + 1, by omega⟩ }
  else .error .stackOverflow

/-- `Pop()` (R101): the popped address and the state with the depth one less. -/
def State.pop (s : State) : Except CycleFault (Word × State) :=
  if s.sp.val = 0 then .error .stackUnderflow
  else
    .ok (s.stack[s.sp.val - 1]'(by have := s.sp.isLt; omega),
      { s with sp := ⟨s.sp.val - 1, by have := s.sp.isLt; omega⟩ })

/-! ## Faults (60_exceptions.md) -/

/-- The 3-bit code of `fault_cause` (R24, R170; D8). -/
def FaultCause.code : FaultCause → BitVec 3
  | .none => 0
  | .illegalAccess => 1
  | .stackOverflow => 2
  | .stackUnderflow => 3
  | .invalidOpcode => 5

/-- The 2-bit encoding of `fsm` (R23). -/
def Fsm.code : Fsm → BitVec 2
  | .idle => 0
  | .running => 1
  | .awaitingKey => 2
  | .halted => 3

/-- `code(E)` as the cause that is latched (R170, R176). -/
def CycleFault.cause : CycleFault → FaultCause
  | .illegalAccess _ => .illegalAccess
  | .stackOverflow => .stackOverflow
  | .stackUnderflow => .stackUnderflow
  | .invalidOpcode _ => .invalidOpcode

/-- `info` as it is latched: the offending address, the opcode, or 0 (R24, R170). The first failing address never
exceeds 0xFFFF (R24), so nothing is cut off. -/
def CycleFault.info : CycleFault → Word
  | .illegalAccess a => BitVec.ofNat 16 a
  | .stackOverflow => 0x0000
  | .stackUnderflow => 0x0000
  | .invalidOpcode op => op

/-- TAKING A FAULT (R176, R88). `s` is the state before the cycle: every write of the cycle is discarded, `pc`
still addresses the instruction, and only the three fault fields change. There is no return from a fault: only the
`reset` event leaves `Halted` (R177). -/
def State.enterFault (s : State) (e : CycleFault) : State :=
  { s with fsm := .halted, faultCause := e.cause, faultInfo := e.info }

/-! ## One cycle (40_execution_cycle.md) -/

/-- Fetch (R81, R82): two bytes at `pc` and `pc + 1`, big-endian. -/
def State.fetch (s : State) : Except CycleFault Word :=
  match s.memRead s.pc.toNat with
  | .error e => .error e
  | .ok hi =>
    match s.memRead (s.pc.toNat + 1) with
    | .error e => .error e
    | .ok lo => .ok (opcodeOfBytes hi lo)

/-- Advance (R83), and the `fsm` a completed cycle leaves (R87): `Running`, which `LD Vx, K` then overwrites. -/
def State.beginCycle (s : State) : State := (s.setPc (s.pc + 2)).setFsm .running

/-- One cycle whose Execute step is `execute` (R80, R88): it runs on the advanced state, and either all of it
happens or the fault is taken from the state before the cycle. -/
def runCycle (s : State) (execute : State → Except CycleFault State) : StepResult :=
  match execute s.beginCycle with
  | .ok t => .next t
  | .error e => .next (s.enterFault e)

end Sys2Proof.Machine
end

