-- ==== Sys2Proof/Machine/Flags.lean ====
section
/-! DEFINITION. Every flag computation of the instruction set (spec/42_register_alu.md R120, R121, R131, R134;
spec/10_state.md R12). -/

namespace Sys2Proof.Machine

/-- The value a flag has in `V[15]`: always 0x00 or 0x01 (R12). -/
def flagByte (c : Bool) : Byte := if c then 0x01 else 0x00

/-- The carry of an addition: `a + b > 255` (R120, R129). -/
def carryOf (a b : Byte) : Bool := decide (a.toNat + b.toNat > 255)

/-- "No borrow" of `a - b`: `a >= b` (R120, R130; C7). -/
def noBorrow (a b : Byte) : Bool := decide (b.toNat ≤ a.toNat)

/-- The bit `SHR` shifts out, of the pre-shift value (R131). -/
def shiftOutLow (a : Byte) : Bool := a.getLsbD 0

/-- The bit `SHL` shifts out, of the pre-shift value (R134). -/
def shiftOutHigh (a : Byte) : Bool := a.getLsbD 7

/-- The writes of a flag-defining instruction, in the order of R121: the result to `V[x]`, then the flag to
`V[15]`, so that with `x` = 15 the flag wins (D13; log 11). -/
def State.setVFlag (s : State) (x : Nibble) (result : Byte) (flag : Bool) : State :=
  (s.setV x result).setV 15 (flagByte flag)

end Sys2Proof.Machine
end

