-- ==== Sys2Proof/Machine/Alu.lean ====
section
/-! DEFINITION. Register loads, arithmetic, logic, shifts and RND (spec/42_register_alu.md). -/

namespace Sys2Proof.Machine

/-- LD Vx, kk (R122). -/
def execLdImm (x : Nibble) (kk : Byte) (s : State) : StepResult :=
  runCycle s fun t => .ok (t.setV x kk)

/-- ADD Vx, kk (R123): no flag (D15). -/
def execAddImm (x : Nibble) (kk : Byte) (s : State) : StepResult :=
  runCycle s fun t => .ok (t.setV x (t.getV x + kk))

/-- LD Vx, Vy (R124). -/
def execLdReg (x y : Nibble) (s : State) : StepResult :=
  runCycle s fun t => .ok (t.setV x (t.getV y))

/-- OR Vx, Vy (R125). -/
def execOrReg (x y : Nibble) (s : State) : StepResult :=
  runCycle s fun t => .ok (t.setV x (t.getV x ||| t.getV y))

/-- AND Vx, Vy (R126). -/
def execAndReg (x y : Nibble) (s : State) : StepResult :=
  runCycle s fun t => .ok (t.setV x (t.getV x &&& t.getV y))

/-- XOR Vx, Vy (R127). -/
def execXorReg (x y : Nibble) (s : State) : StepResult :=
  runCycle s fun t => .ok (t.setV x (t.getV x ^^^ t.getV y))

/-- ADD Vx, Vy (R129, R121). -/
def execAddReg (x y : Nibble) (s : State) : StepResult :=
  runCycle s fun t => .ok (t.setVFlag x (t.getV x + t.getV y) (carryOf (t.getV x) (t.getV y)))

/-- SUB Vx, Vy (R130, R121). -/
def execSub (x y : Nibble) (s : State) : StepResult :=
  runCycle s fun t => .ok (t.setVFlag x (t.getV x - t.getV y) (noBorrow (t.getV x) (t.getV y)))

/-- SHR Vx (R131, R128): `V[x]` in place; the `y` field is ignored (R64; D14). -/
def execShr (x _y : Nibble) (s : State) : StepResult :=
  runCycle s fun t => .ok (t.setVFlag x (t.getV x >>> 1) (shiftOutLow (t.getV x)))

/-- SUBN Vx, Vy (R133, R121). -/
def execSubn (x y : Nibble) (s : State) : StepResult :=
  runCycle s fun t => .ok (t.setVFlag x (t.getV y - t.getV x) (noBorrow (t.getV y) (t.getV x)))

/-- SHL Vx (R134, R128): `V[x]` in place; the `y` field is ignored (R64; D14). -/
def execShl (x _y : Nibble) (s : State) : StepResult :=
  runCycle s fun t => .ok (t.setVFlag x (t.getV x <<< 1) (shiftOutHigh (t.getV x)))

/-- RND Vx, kk (R132; D19): the free draw AND `kk` (log 2). -/
def execRnd (x : Nibble) (kk : Byte) (s : State) : StepResult :=
  runCycle s fun t => .ok ((t.setV x (Config.rnd t.draws &&& kk)).nextDraw)

end Sys2Proof.Machine
end

