-- ==== Sys2Proof/Machine/Operands.lean ====
section
/-! DEFINITION. Every operand form of the instruction set (spec/30_encoding.md R62, R70; spec/43_index_memory.md R144). -/

namespace Sys2Proof.Machine

/-- A 12-bit address as `pc` or `I` holds it: `zext_16(nnn)` (R62). -/
def addrWord (nnn : Addr12) : Word := nnn.setWidth 16

/-- A byte in a 16-bit sum: `zext_16(V[x])` (R108, R141, R142). -/
def byteWord (b : Byte) : Word := b.setWidth 16

/-- The address of element `k` at `I`: the natural number `I + k`, not wrapped (R48, R144; D9). -/
def State.effAddr (s : State) (k : Nat) : Nat := s.i.toNat + k

/-- `I + zext_16(b)` in 16 bits (R141; D10). -/
def indexPlus (i : Word) (b : Byte) : Word := i + byteWord b

/-- The font address of the digit `b`, `0x0050 + 5 * b`, with the full byte (R142; D17). -/
def fontAddr (b : Byte) : Word := 0x0050 + 5 * byteWord b

/-- The target of `JP V0, nnn`: `nnn + V[0]` in 16 bits, not masked (R108; D11). -/
def State.jumpTarget (s : State) (nnn : Addr12) : Word := addrWord nnn + byteWord (s.getV 0)

/-- The key a register selects: the low four bits of its value (R163; D18). -/
def keyIndex (b : Byte) : Nibble := b.extractLsb' 0 4

/-- The decimal digits of a byte: hundreds, tens, ones (R143). -/
def bcdDigits (b : Byte) : List Byte :=
  [BitVec.ofNat 8 (b.toNat / 100), BitVec.ofNat 8 (b.toNat / 10 % 10), BitVec.ofNat 8 (b.toNat % 10)]

/-- A skip: a further 2 on the advanced `pc` when the condition holds (R14, R83). -/
def State.skipIf (s : State) (c : Bool) : State := if c then s.setPc (s.pc + 2) else s

end Sys2Proof.Machine
end

