-- ==== Sys2Proof/Machine/ControlFlow.lean ====
section
/-! DEFINITION. SYS (spec/40_execution_cycle.md R89) and the control-flow instructions (spec/41_control_flow.md). -/

namespace Sys2Proof.Machine

/-- RET (R104): `pc <- Pop()`. -/
def execRet (s : State) : StepResult :=
  runCycle s fun t =>
    match t.pop with
    | .error e => .error e
    | .ok (a, u) => .ok (u.setPc a)

/-- SYS nnn (R89; D4): raises InvalidOpcode with its own word. -/
def execSys (nnn : Addr12) (s : State) : StepResult :=
  runCycle s fun _ => .error (.invalidOpcode (encode (.sys nnn)))

/-- JP nnn (R103). -/
def execJp (nnn : Addr12) (s : State) : StepResult :=
  runCycle s fun t => .ok (t.setPc (addrWord nnn))

/-- CALL nnn (R102): pushes the advanced `pc`. -/
def execCall (nnn : Addr12) (s : State) : StepResult :=
  runCycle s fun t =>
    match t.push t.pc with
    | .error e => .error e
    | .ok u => .ok (u.setPc (addrWord nnn))

/-- SE Vx, kk (R105). -/
def execSeImm (x : Nibble) (kk : Byte) (s : State) : StepResult :=
  runCycle s fun t => .ok (t.skipIf (t.getV x == kk))

/-- SNE Vx, kk (R106). -/
def execSneImm (x : Nibble) (kk : Byte) (s : State) : StepResult :=
  runCycle s fun t => .ok (t.skipIf (t.getV x != kk))

/-- SE Vx, Vy (R107). -/
def execSeReg (x y : Nibble) (s : State) : StepResult :=
  runCycle s fun t => .ok (t.skipIf (t.getV x == t.getV y))

/-- SNE Vx, Vy (R109). -/
def execSneReg (x y : Nibble) (s : State) : StepResult :=
  runCycle s fun t => .ok (t.skipIf (t.getV x != t.getV y))

/-- JP V0, nnn (R108). -/
def execJpV0 (nnn : Addr12) (s : State) : StepResult :=
  runCycle s fun t => .ok (t.setPc (t.jumpTarget nnn))

end Sys2Proof.Machine
end

