-- ==== Sys2Proof/Machine/Display.lean ====
section
/-! DEFINITION. The display primitives, CLS and DRW (spec/44_display.md). -/

namespace Sys2Proof.Machine

/-! ## Primitives (R150, R151) -/

/-- `DispGet(x, y)`: coordinates wrap (R150). -/
def dispGet (d : Display) (x y : Nat) : Bool :=
  (d[y % 32]'(Nat.mod_lt y (by decide)))[x % 64]'(Nat.mod_lt x (by decide))

/-- `DispSet(x, y, p)`: coordinates wrap (R151). -/
def dispSet (d : Display) (x y : Nat) (p : Bool) : Display :=
  d.set (y % 32) ((d[y % 32]'(Nat.mod_lt y (by decide))).set (x % 64) p (Nat.mod_lt x (by decide)))
    (Nat.mod_lt y (by decide))

/-- The display with every pixel off (R152). -/
def dispClear : Display := Vector.replicate 32 (Vector.replicate 64 false)

/-! ## The sprite blit (R153). The accumulator is the display and whether an on pixel was turned off. -/

/-- One sprite bit of 1 at `(x, y)`: the pixel is inverted, and an on pixel is a collision (R153). -/
def togglePixel (x y : Nat) (acc : Display × Bool) : Display × Bool :=
  (dispSet acc.1 x y (!dispGet acc.1 x y), acc.2 || dispGet acc.1 x y)

/-- Sprite column `c` of the row byte `b`: bit 7 is the leftmost pixel (R153, R154 a). -/
def drawColumn (x y : Nat) (b : Byte) (acc : Display × Bool) (c : Nat) : Display × Bool :=
  if b.getLsbD (7 - c) then togglePixel (x + c) y acc else acc

/-- One sprite row, columns left to right (R153). -/
def drawRow (x y : Nat) (b : Byte) (acc : Display × Bool) : Display × Bool :=
  (List.range 8).foldl (drawColumn x y b) acc

/-- The sprite rows, top to bottom (R153). -/
def drawRows (x : Nat) : Nat → List Byte → Display × Bool → Display × Bool
  | _, [], acc => acc
  | y, b :: bs, acc => drawRows x (y + 1) bs (drawRow x y b acc)

/-! ## The instructions -/

/-- CLS (R152): every pixel off; the cycle sets the draw-flag (R86). -/
def execCls (s : State) : StepResult :=
  runCycle s fun t => .ok ((t.setDisp dispClear).setDrawFlag true)

/-- DRW Vx, Vy, n (R153, R154): the coordinates are read before `V[15]` is touched, all `n` bytes before any
write; `V[15]` is the collision flag; the cycle sets the draw-flag (R86). -/
def execDrw (x y n : Nibble) (s : State) : StepResult :=
  runCycle s fun t =>
    match t.readBytes (t.effAddr 0) n.toNat with
    | .error e => .error e
    | .ok rows =>
      let drawn := drawRows (t.getV x).toNat (t.getV y).toNat rows (t.disp, false)
      .ok (((t.setDisp drawn.1).setV 15 (flagByte drawn.2)).setDrawFlag true)

end Sys2Proof.Machine
end

