-- ==== Sys2Proof/Machine/IndexMemory.lean ====
section
/-! DEFINITION. The index register and the memory instructions (spec/43_index_memory.md). None of the memory forms
changes `I` (R144; D16). -/

namespace Sys2Proof.Machine

/-- LD I, nnn (R140). -/
def execLdI (nnn : Addr12) (s : State) : StepResult :=
  runCycle s fun t => .ok (t.setI (addrWord nnn))

/-- ADD I, Vx (R141): 16-bit sum, no flag (D10). -/
def execAddI (x : Nibble) (s : State) : StepResult :=
  runCycle s fun t => .ok (t.setI (indexPlus t.i (t.getV x)))

/-- LD F, Vx (R142). -/
def execLdF (x : Nibble) (s : State) : StepResult :=
  runCycle s fun t => .ok (t.setI (fontAddr (t.getV x)))

/-- LD B, Vx (R143): hundreds, tens, ones at `I`, `I+1`, `I+2`. -/
def execLdB (x : Nibble) (s : State) : StepResult :=
  runCycle s fun t => t.storeBytes (t.effAddr 0) (bcdDigits (t.getV x))

/-- LD [I], Vx (R145): `V[0]` to `V[x]` at `I` upward. -/
def execLdIVx (x : Nibble) (s : State) : StepResult :=
  runCycle s fun t => t.storeBytes (t.effAddr 0) (t.firstVs x)

/-- LD Vx, [I] (R146): `V[0]` to `V[x]` from `I` upward. -/
def execLdVxI (x : Nibble) (s : State) : StepResult :=
  runCycle s fun t =>
    match t.readBytes (t.effAddr 0) (x.toNat + 1) with
    | .error e => .error e
    | .ok bs => .ok (t.setVs 0 bs)

end Sys2Proof.Machine
end

