-- ==== Sys2Proof/Machine/TimersKeypad.lean ====
section
/-! DEFINITION. The keypad and timer instructions (spec/45_timers_keypad.md). The timers' counting and the second
half of LD Vx, K are events: see Machine/Events.lean. -/

namespace Sys2Proof.Machine

/-- SKP Vx (R160, R163). -/
def execSkp (x : Nibble) (s : State) : StepResult :=
  runCycle s fun t => .ok (t.skipIf (t.getKey (keyIndex (t.getV x))))

/-- SKNP Vx (R161, R163). -/
def execSknp (x : Nibble) (s : State) : StepResult :=
  runCycle s fun t => .ok (t.skipIf (!t.getKey (keyIndex (t.getV x))))

/-- LD Vx, DT (R162). -/
def execLdVxDT (x : Nibble) (s : State) : StepResult :=
  runCycle s fun t => .ok (t.setV x t.dt)

/-- LD Vx, K, first half (R164; D22): the engine waits for a key-press event. -/
def execLdVxK (x : Nibble) (s : State) : StepResult :=
  runCycle s fun t => .ok ((t.setWaitX x).setFsm .awaitingKey)

/-- LD DT, Vx (R165). -/
def execLdDTVx (x : Nibble) (s : State) : StepResult :=
  runCycle s fun t => .ok (t.setDT (t.getV x))

/-- LD ST, Vx (R166). -/
def execLdSTVx (x : Nibble) (s : State) : StepResult :=
  runCycle s fun t => .ok (t.setST (t.getV x))

end Sys2Proof.Machine
end

