-- ==== Sys2Proof/Machine/Events.lean ====
section
/-! DEFINITION. The events (spec/00_scope.md R4): `cpu_tick` (40_execution_cycle.md), `timer_tick`, `set_key`,
`ack_draw` (60_exceptions.md), `load`, `reset` (70_reset_and_hazards.md); their responses; the host's readouts. -/

namespace Sys2Proof.Machine

/-! ## `cpu_tick` -/

/-- One fetch-decode-execute cycle (R80 to R89): the faults of fetch and decode are taken from `s`. -/
def cycle (s : State) : StepResult :=
  match s.fetch with
  | .error e => .next (s.enterFault e)
  | .ok op =>
    match decode op with
    | .error (.invalidOpcode w) => .next (s.enterFault (.invalidOpcode w))
    | .ok i => exec i s

/-- `cpu_tick` (R80): a cycle in `Idle` and `Running` (D6), no change in `AwaitingKey` and `Halted` (R90). -/
def cpuTick (s : State) : StepResult :=
  match s.fsm with
  | .idle => cycle s
  | .running => cycle s
  | .awaitingKey => .next s
  | .halted => .next s

/-! ## The other events -/

/-- A timer counts down while nonzero and stays at 0 (R185). -/
def timerDec (b : Byte) : Byte := if b = 0 then 0 else b - 1

/-- `timer_tick` (R185), in every `fsm` state (D23). -/
def State.timerTick (s : State) : State := (s.setDT (timerDec s.dt)).setST (timerDec s.st)

/-- `set_key(index, pressed)` (R188), with the second half of LD Vx, K (R164; D22). -/
def State.setKeyEvent (s : State) (index : Nibble) (pressed : Bool) : State :=
  let t := s.setKeyLatch index pressed
  if s.fsm = .awaitingKey ∧ pressed = true then (t.setV s.waitX (index.setWidth 8)).setFsm .running else t

/-- `ack_draw` (R191). -/
def State.ackDraw (s : State) : State := s.setDrawFlag false

/-- The payload of `load` fits RAM: at most 0xE00 = 3584 bytes (R203). -/
def romFits (bytes : List Byte) : Bool := decide (bytes.length ≤ 0xE00)

/-- `load(bytes)` (R203), in every `fsm` state (R204; D25): the payload at 0x200 upward, or no change. -/
def State.loadRom (s : State) (bytes : List Byte) : State :=
  if romFits bytes then s.setMem (Memory.writeBytes s.fontTable s.mem 0x200 bytes) else s

/-- `reset` (R200): every component the spec names at its reset value, the font region from the parameter `FONT_TABLE`
(R29). The model's own fields go on: the draws already made stay made and the host's later events stay to come (log 1,
log 2). -/
def State.doReset (s : State) : State :=
  { State.resetWith s.fontTable with draws := s.draws, events := s.events }

/-- One event (R4), performed on the state. -/
def perform (e : Event) (s : State) : StepResult :=
  match e with
  | .cpuTick => cpuTick s
  | .timerTick => .next s.timerTick
  | .setKey index pressed => .next (s.setKeyEvent index pressed)
  | .ackDraw => .next s.ackDraw
  | .load bytes => .next (s.loadRom bytes)
  | .reset => .next s.doReset

/-- The next event: the oldest the host has scheduled, or a `cpu_tick` where it has scheduled none (log 1). -/
def takeEvent (s : State) : StepResult :=
  match s.events with
  | [] => cpuTick s
  | e :: rest => perform e (s.setEvents rest)

/-! ## Responses (R80, R176, R203; D8) -/

/-- What a cycle that ended in `t` answers its caller: the error it latched, or `ok` (R176). -/
def cycleResponse (t : State) : Response :=
  if t.fsm = .halted then .error t.faultCause t.faultInfo else .ok

/-- What a `cpu_tick` in `s` answers: in `AwaitingKey` and `Halted` it answers `ok` (R80). -/
def cpuTickResponse (s : State) : Response :=
  match s.fsm with
  | .awaitingKey => .ok
  | .halted => .ok
  | .idle | .running =>
    match cycle s with
    | .next t => cycleResponse t
    | .fault _ => .ok
    | .refused _ => .ok

/-- What an event answers its caller (R80, R200, R203). -/
def response (e : Event) (s : State) : Response :=
  match e with
  | .cpuTick => cpuTickResponse s
  | .timerTick => .ok
  | .setKey _ _ => .ok
  | .ackDraw => .ok
  | .load bytes => if romFits bytes then .ok else .invalidRom
  | .reset => .ok

/-- The numeric code of a response (R170): 0 for `ok`, 4 for InvalidROM. -/
def Response.code : Response → BitVec 3
  | .ok => 0
  | .error c _ => c.code
  | .invalidRom => 4

/-! ## Readouts (R190, R192): no event, no side effect (D35) -/

/-- The render readout: pixel `(x, y)`, for `x` below 64 and `y` below 32 (R190). -/
def renderReadout (s : State) (x : Fin 64) (y : Fin 32) : Bool := dispGet s.disp x.val y.val

/-- What the diagnostics readout shows (R192). -/
structure Diagnostics where
  v : Vector Byte 16
  i : Word
  pc : Word
  dt : Byte
  st : Byte
  fsm : Fsm
  faultCause : FaultCause
  faultInfo : Word
  drawFlag : Bool
  deriving DecidableEq, Repr

/-- The diagnostics readout (R192). -/
def diagnosticsReadout (s : State) : Diagnostics :=
  ⟨s.v, s.i, s.pc, s.dt, s.st, s.fsm, s.faultCause, s.faultInfo, s.drawFlag⟩

end Sys2Proof.Machine
end

