-- ==== Sys2Proof/Machine/Step.lean ====
section
/-! DEFINITION. One step of the machine: one event (spec/00_scope.md R4). -/

namespace Sys2Proof.Machine

/-- One step: the next event (R4, R52). With no event scheduled it is a `cpu_tick` (log 1). -/
def step (s : State) : Host.Outcome State Fault Refusal := takeEvent s

/-- `s` with the instruction word `w` at the place the next step fetches from, and everything the fetch needs: no
other event first, an engine that takes cycles, a `pc` that can be fetched from. At a state that already has these
(State.reset among them) only the two bytes change (log 21). -/
def State.withFetchWord (s : State) (nbits w : Nat) : State :=
  let op : Word := BitVec.ofNat 16 (w % 2 ^ nbits)
  let a : Word := if s.pc.toNat ≤ 0xFFE then s.pc else 0x0200
  let ready : Bool := s.fsm == .idle || s.fsm == .running
  { s with
    mem := Memory.write s.fontTable (Memory.write s.fontTable s.mem a.toNat (opHi op)) (a.toNat + 1) (opLo op)
    pc := a
    fsm := if ready then s.fsm else .running
    faultCause := if ready then s.faultCause else .none
    faultInfo := if ready then s.faultInfo else 0
    events := [] }

end Sys2Proof.Machine
end

