-- ==== Sys2Proof/Safety.lean ====
section
/-! DEFINITION. The terms claims are stated in: the invariant of the machine (spec/10_state.md R32), what a
transition may write (frames), which registers an instruction writes, and the closed form of the sprite blit. -/

namespace Sys2Proof

open Sys2Proof.Machine

/-! ## The invariant (R32) -/

/-- The facts that hold of every reachable state (R32), with the canonical form of the memory list (log 20).
Clause (a) of R32, `sp <= 16`, is the type of `sp`; clause (f) says nothing is asked of `V[15]`. -/
structure Inv (s : State) : Prop where
  /-- The memory list is in its canonical form. -/
  memWf : Memory.wf s.fontTable s.mem = true
  /-- R32 (b): the reserved and font bytes hold their reset values. -/
  memRam : Memory.onlyRam s.mem = true
  /-- R32 (c): `fault_cause` is not 0 exactly when the engine is halted. -/
  cause : s.faultCause ≠ .none ↔ s.fsm = .halted
  /-- R32 (d): every live stack entry is an advanced program counter. -/
  stack : ∀ k : Fin 16, k.val < s.sp.val → 0x0002 ≤ s.stack[k.val].toNat ∧ s.stack[k.val].toNat ≤ 0x1000
  /-- R32 (e). -/
  pc : s.pc.toNat ≤ 0x10FE

/-! ## Frames -/

/-- What a transition may write. Everything not named is kept; `pc` and `fsm` are stated apart. -/
structure Writes where
  v : Nibble → Bool := fun _ => false
  i : Bool := false
  stack : Bool := false
  mem : Nat → Bool := fun _ => false
  disp : Bool := false
  dt : Bool := false
  st : Bool := false
  key : Bool := false
  fault : Bool := false
  drawFlag : Bool := false
  waitX : Bool := false
  draws : Bool := false

/-- `t` differs from `s` in nothing but `pc`, `fsm` and what `w` names. -/
structure Frame (w : Writes) (s t : State) : Prop where
  v : ∀ x, w.v x = false → t.getV x = s.getV x
  i : w.i = false → t.i = s.i
  stack : w.stack = false → t.stack = s.stack ∧ t.sp = s.sp
  mem : ∀ a, w.mem a = false → t.byteAt a = s.byteAt a
  disp : w.disp = false → t.disp = s.disp
  dt : w.dt = false → t.dt = s.dt
  st : w.st = false → t.st = s.st
  key : w.key = false → t.key = s.key
  fault : w.fault = false → t.faultCause = s.faultCause ∧ t.faultInfo = s.faultInfo
  drawFlag : w.drawFlag = false → t.drawFlag = s.drawFlag
  waitX : w.waitX = false → t.waitX = s.waitX
  draws : w.draws = false → t.draws = s.draws
  fontTable : t.fontTable = s.fontTable
  events : t.events = s.events

/-- The one register `x`. -/
def onlyV (x : Nibble) : Nibble → Bool := fun r => r == x
/-- The register `x` and the flag register (R12). -/
def onlyVAndFlag (x : Nibble) : Nibble → Bool := fun r => r == x || r == 15
/-- `V[0]` to `V[x]` (R146). -/
def upToV (x : Nibble) : Nibble → Bool := fun r => decide (r.toNat ≤ x.toNat)
/-- The `n` addresses from `a` upward. -/
def bytesAt (a n : Nat) : Nat → Bool := fun b => decide (a ≤ b ∧ b < a + n)

/-! ## Which registers an instruction may write -/

/-- The flag-defining instructions (R12). -/
def Instr.definesFlag : Instr → Bool
  | .addReg _ _ => true
  | .sub _ _ => true
  | .shr _ _ => true
  | .subn _ _ => true
  | .shl _ _ => true
  | .drw _ _ _ => true
  | .cls => false
  | .ret => false
  | .sys _ => false
  | .jp _ => false
  | .call _ => false
  | .seImm _ _ => false
  | .sneImm _ _ => false
  | .seReg _ _ => false
  | .ldImm _ _ => false
  | .addImm _ _ => false
  | .ldReg _ _ => false
  | .orReg _ _ => false
  | .andReg _ _ => false
  | .xorReg _ _ => false
  | .sneReg _ _ => false
  | .ldI _ => false
  | .jpV0 _ => false
  | .rnd _ _ => false
  | .skp _ => false
  | .sknp _ => false
  | .ldVxDT _ => false
  | .ldVxK _ => false
  | .ldDTVx _ => false
  | .ldSTVx _ => false
  | .addI _ => false
  | .ldF _ => false
  | .ldB _ => false
  | .ldIVx _ => false
  | .ldVxI _ => false

/-- The registers an instruction's rule writes during its cycle, the flag apart (R11, files 41 to 45). LD Vx, K
writes its register at the key event, not in its cycle (R11). -/
def Instr.destinations : Instr → Nibble → Bool
  | .ldImm x _ => onlyV x
  | .addImm x _ => onlyV x
  | .ldReg x _ => onlyV x
  | .orReg x _ => onlyV x
  | .andReg x _ => onlyV x
  | .xorReg x _ => onlyV x
  | .addReg x _ => onlyV x
  | .sub x _ => onlyV x
  | .shr x _ => onlyV x
  | .subn x _ => onlyV x
  | .shl x _ => onlyV x
  | .rnd x _ => onlyV x
  | .ldVxDT x => onlyV x
  | .ldVxI x => upToV x
  | .cls => fun _ => false
  | .ret => fun _ => false
  | .sys _ => fun _ => false
  | .jp _ => fun _ => false
  | .call _ => fun _ => false
  | .seImm _ _ => fun _ => false
  | .sneImm _ _ => fun _ => false
  | .seReg _ _ => fun _ => false
  | .sneReg _ _ => fun _ => false
  | .ldI _ => fun _ => false
  | .jpV0 _ => fun _ => false
  | .drw _ _ _ => fun _ => false
  | .skp _ => fun _ => false
  | .sknp _ => fun _ => false
  | .ldVxK _ => fun _ => false
  | .ldDTVx _ => fun _ => false
  | .ldSTVx _ => fun _ => false
  | .addI _ => fun _ => false
  | .ldF _ => fun _ => false
  | .ldB _ => fun _ => false
  | .ldIVx _ => fun _ => false

/-- The registers that may differ after a cycle of `i`: its destinations, and `V[15]` where it defines a flag. -/
def Instr.mayWrite (i : Instr) (r : Nibble) : Bool := i.destinations r || (i.definesFlag && r == 15)

/-! ## The sprite in closed form (R153, R154) -/

/-- The `n` bytes memory holds from `I` upward: the rows of a sprite (R153). -/
def spriteRows (s : State) (n : Nat) : List Byte :=
  (List.range n).map fun r => s.byteAt (s.effAddr r)

/-- Whether the sprite `rows`, placed at `(x0, y0)`, has a 1 at pixel `(px, py)`: its column and row there are
counted from the wrapped start, and bit 7 is the leftmost (R154 a, b). -/
def spriteBit (rows : List Byte) (x0 y0 px py : Nat) : Bool :=
  let c := (px + 64 - x0 % 64) % 64
  let r := (py + 32 - y0 % 32) % 32
  decide (c < 8) && (rows.getD r 0x00).getLsbD (7 - c)

/-- Two states of one machine agree on everything the spec names (the model's `draws` and `events` apart; they have one `FONT_TABLE`). -/
def sameMachine (s t : State) : Prop := { s with draws := t.draws, events := t.events } = t

end Sys2Proof
end

