-- ==== Sys2Proof/Certificates/Slice0/Obligations.lean ====
section
/-! DEFINITION. The statements for the provers, taken from the numbered rules of spec/. Each docstring names the rule
or the section it formalises, and where a clause rests on one of the spec's own decisions (D<n>) or on a choice of the
model, the decision and the log entry. `∃ t, exec i s = .next t ∧ …` says that the instruction completes.
`Frame { … } s t` (Safety.lean) says that `t` differs from `s` in nothing but `pc`, `fsm` and the parts named. -/

open Sys2Proof Sys2Proof.Machine

/-! ## Encoding (30_encoding.md) -/

/-- Decoding an encoded well-formed instruction gives it back, for every instruction and every operand. -/
def Obligations.DecodeOfEncodeIsIdentity : Prop :=
  ∀ i : Instr, i.wellFormed = true → decode (encode i) = .ok i

/-- A word that decodes is the encoding of what it decodes to, which is well-formed: no bit of a word is dropped. For
SHR and SHL that is the model's choice (log 12): their constructors keep the ignored `y`, so that the words R64 lets
differ in `y` alone stay apart as terms, and run alike. -/
def Obligations.EncodeOfDecodeIsIdentity : Prop :=
  ∀ (op : Word) (i : Instr), decode op = .ok i → i.wellFormed = true ∧ encode i = op

/-- R63: decoding is the first match, in priority order, in the table of mask and match (R66); the rows are pairwise
disjoint, except that CLS and RET overlap SYS (row 3); with no match it is InvalidOpcode. -/
def Obligations.DecodeIsFirstMatchOfOpcodeTable : Prop :=
  (∀ op : Word, decode op = decodeByTable op) ∧
  ∀ op : Word,
    (opcodeTable.eraseIdx 2).Pairwise (fun r q => ¬ (op &&& r.mask = r.pattern ∧ op &&& q.mask = q.pattern)) ∧
    (opcodeTable.drop 2).Pairwise (fun r q => ¬ (op &&& r.mask = r.pattern ∧ op &&& q.mask = q.pattern))

/-- The words that match no pattern are exactly those section 3 of 30_encoding.md enumerates (R67); every other word
decodes. -/
def Obligations.UndecodableWordsAreTheEnumeratedOnes : Prop :=
  ∀ op : Word,
    (decode op = .error (.invalidOpcode op) ↔
      ((opMajor op = 0x5 ∨ opMajor op = 0x9) ∧ opN op ≠ 0) ∨
      (opMajor op = 0x8 ∧ opN op ∈ ([0x8, 0x9, 0xA, 0xB, 0xC, 0xD, 0xF] : List Nibble)) ∨
      (opMajor op = 0xE ∧ opKK op ∉ ([0x9E, 0xA1] : List Byte)) ∨
      (opMajor op = 0xF ∧ opKK op ∉ ([0x07, 0x0A, 0x15, 0x18, 0x1E, 0x29, 0x33, 0x55, 0x65] : List Byte))) ∧
    ((∃ i, decode op = .ok i) ∨ decode op = .error (.invalidOpcode op))

/-- A few words written out from the encodings, one per family: control flow, register, logic and shift, index,
display, keypad, timer, the SYS row, and a word that is none. -/
def Obligations.SampleWordsDecodeAsWritten : Prop :=
  decodeBytes 0x63 0x2A = .ok (.ldImm 0x3 0x2A) ∧ decodeBytes 0xD1 0x25 = .ok (.drw 0x1 0x2 0x5) ∧
  decodeBytes 0xFA 0x65 = .ok (.ldVxI 0xA) ∧ decodeBytes 0x8A 0xB7 = .ok (.subn 0xA 0xB) ∧
  decodeBytes 0x00 0xE0 = .ok .cls ∧ decodeBytes 0x00 0xEE = .ok .ret ∧
  decodeBytes 0x01 0x23 = .ok (.sys 0x123) ∧ decodeBytes 0x82 0xF6 = .ok (.shr 0x2 0xF) ∧
  decodeBytes 0xE4 0xA1 = .ok (.sknp 0x4) ∧ decodeBytes 0xF3 0x18 = .ok (.ldSTVx 0x3) ∧
  decodeBytes 0x5A 0xB1 = .error (.invalidOpcode 0x5AB1)

/-! ## Shared operations (20_memory.md, 41_control_flow.md) -/

/-- R46: a read answers the byte for an address up to 0xFFF and raises IllegalAccess of that address above. -/
def Obligations.MemReadAnswersByteOrFaults : Prop :=
  ∀ (s : State) (a : Nat),
    (a ≤ 0xFFF → s.memRead a = .ok (s.byteAt a)) ∧
    (0xFFF < a → s.memRead a = .error (.illegalAccess a))

/-- R47: a write to RAM stores the byte and changes nothing else; any other write raises IllegalAccess. -/
def Obligations.MemWriteStoresOnlyInRam : Prop :=
  ∀ (s : State) (a : Nat) (b : Byte),
    (0x200 ≤ a ∧ a ≤ 0xFFF → ∃ t, s.memWrite a b = .ok t ∧ t.byteAt a = b ∧
      (∀ c, c ≠ a → t.byteAt c = s.byteAt c) ∧ t = { s with mem := t.mem }) ∧
    (a < 0x200 ∨ 0xFFF < a → s.memWrite a b = .error (.illegalAccess a))

/-- The stack (R100, R101): pushing raises StackOverflow exactly at depth 16 and otherwise stores all 16 bits at the
top; popping raises StackUnderflow exactly at depth 0, and gives back what was pushed last, with the depth as before.
That pop keeps the content of the slot it frees is the model's choice (log 26; D27 calls it unobservable). -/
def Obligations.StackIsLastInFirstOut : Prop :=
  ∀ (s : State) (a : Word),
    (s.sp.val = 16 → s.push a = .error .stackOverflow) ∧
    (s.sp.val = 0 → s.pop = .error .stackUnderflow) ∧
    (∀ h : s.sp.val < 16, ∃ t, s.push a = .ok t ∧ t.sp.val = s.sp.val + 1 ∧ t.stack[s.sp.val] = a ∧
      (∀ k : Fin 16, k.val ≠ s.sp.val → t.stack[k.val] = s.stack[k.val]) ∧
      t = { s with stack := t.stack, sp := t.sp } ∧
      ∃ u, t.pop = .ok (a, u) ∧ u = { s with stack := t.stack }) ∧
    (∀ h : 0 < s.sp.val, ∃ u, s.pop = .ok (s.stack[s.sp.val - 1]'(by omega), u) ∧
      u.sp.val = s.sp.val - 1 ∧ u = { s with sp := u.sp })

/-! ## The cycle (40_execution_cycle.md) -/

/-- One step is one event: the oldest the host has scheduled, or a `cpu_tick` (the model's choice, log 1). Where that
is a `cpu_tick` in `Idle` or `Running` and the two bytes at `pc` decode to `i`, the step is `exec i` (log 9). -/
def Obligations.StepRunsTheDecodedInstruction : Prop :=
  (∀ (s : State) (i : Instr), s.events = [] → (s.fsm = .idle ∨ s.fsm = .running) → s.pc.toNat ≤ 0xFFE →
    decodeBytes (s.byteAt s.pc.toNat) (s.byteAt (s.pc.toNat + 1)) = .ok i →
    step s = exec i s) ∧
  (∀ (s : State) (rest : List Event) (i : Instr), s.events = .cpuTick :: rest →
    (s.fsm = .idle ∨ s.fsm = .running) → s.pc.toNat ≤ 0xFFE →
    decodeBytes (s.byteAt s.pc.toNat) (s.byteAt (s.pc.toNat + 1)) = .ok i →
    step s = exec i (s.setEvents rest)) ∧
  (∀ (s : State) (e : Event) (rest : List Event), s.events = e :: rest → step s = perform e (s.setEvents rest))

/-- The faults of fetch and decode, in that order (R82, R174, R175): `pc` above 0xFFE raises IllegalAccess of the first
byte that does not exist, and a fetched word no pattern matches raises InvalidOpcode of that word. Fault entry changes
only the three fault fields (decision D7, log 6). -/
def Obligations.FetchAndDecodeFaultsAreTaken : Prop :=
  ∀ s : State, (s.fsm = .idle ∨ s.fsm = .running) →
    (0xFFF < s.pc.toNat → cpuTick s = .next (s.enterFault (.illegalAccess s.pc.toNat))) ∧
    (s.pc.toNat = 0xFFF → cpuTick s = .next (s.enterFault (.illegalAccess 0x1000))) ∧
    (∀ op : Word, s.pc.toNat ≤ 0xFFE →
      op = opcodeOfBytes (s.byteAt s.pc.toNat) (s.byteAt (s.pc.toNat + 1)) →
      decode op = .error (.invalidOpcode op) → cpuTick s = .next (s.enterFault (.invalidOpcode op)))

/-- R90, with R80's response `ok` (D8, log 22) and the timers counting in both states (D23, log 17): in `AwaitingKey`
and `Halted` a `cpu_tick` changes nothing at all and answers `ok`, while the other events keep their normal effect:
the timers count, `set_key` updates the latch and in `AwaitingKey` a press ends the wait, and `reset` returns to
`Idle`. -/
def Obligations.TickOutsideRunningChangesNothing : Prop :=
  ∀ s : State, (s.fsm = .awaitingKey ∨ s.fsm = .halted) →
    perform .cpuTick s = .next s ∧ response .cpuTick s = .ok ∧
    (∃ t, perform .timerTick s = .next t ∧ t.dt.toNat = s.dt.toNat - 1 ∧ t.st.toNat = s.st.toNat - 1) ∧
    (∀ (k : Nibble) (p : Bool), ∃ t, perform (.setKey k p) s = .next t ∧ t.getKey k = p ∧
      (t.fsm = .running ↔ s.fsm = .awaitingKey ∧ p = true)) ∧
    (∃ t, perform .reset s = .next t ∧ t.fsm = .idle)

/-- A cycle is all or nothing: whatever the instruction and the state, a cycle that ends `Halted` is fault entry from
the state before it, so it differs from that state in the three fault fields alone, `pc` included (R88, R176; decision
D7, log 6); and the caller is answered the error that was latched (decision D8, log 22). -/
def Obligations.FaultedCycleChangesOnlyFaultFields : Prop :=
  (∀ (i : Instr) (s t : State), exec i s = .next t → t.fsm = .halted → ∃ e, t = s.enterFault e) ∧
  ∀ s t : State, (s.fsm = .idle ∨ s.fsm = .running) → cpuTick s = .next t →
    (t.fsm = .halted → (∃ e, t = s.enterFault e) ∧ response .cpuTick s = .error t.faultCause t.faultInfo) ∧
    (t.fsm ≠ .halted → response .cpuTick s = .ok)

/-- Every instruction in every state, and every step of every state, answers a next state: nothing in the machine stops
without one (log 5). -/
def Obligations.EveryStepAnswersANextState : Prop :=
  (∀ (i : Instr) (s : State), ∃ t, exec i s = .next t) ∧ ∀ s : State, ∃ t, step s = .next t

/-- R172, R173: StackOverflow is raised by CALL at depth 16 and by nothing else, StackUnderflow by RET at depth 0 and by
nothing else, and nothing is recorded besides the cause. -/
def Obligations.StackFaultsComeFromCallAndRetOnly : Prop :=
  ∀ (i : Instr) (s t : State), exec i s = .next t →
    ((t.fsm = .halted ∧ t.faultCause = .stackOverflow) ↔ (∃ nnn, i = .call nnn) ∧ s.sp.val = 16) ∧
    ((t.fsm = .halted ∧ t.faultCause = .stackUnderflow) ↔ i = .ret ∧ s.sp.val = 0) ∧
    (t.fsm = .halted → t.faultCause = .stackOverflow ∨ t.faultCause = .stackUnderflow → t.faultInfo = 0)

/-- Which instructions can raise the other two cycle faults (R171, R174): IllegalAccess only DRW, LD Vx,[I], LD B and
LD [I]; InvalidOpcode only SYS, which always does; and the latched cause is never none. -/
def Obligations.OtherFaultsComeFromTheirInstructionsOnly : Prop :=
  ∀ (i : Instr) (s t : State), exec i s = .next t → t.fsm = .halted →
    t.faultCause ≠ .none ∧
    (t.faultCause = .illegalAccess →
      (∃ x y n, i = .drw x y n) ∨ (∃ x, i = .ldVxI x) ∨ (∃ x, i = .ldB x) ∨ ∃ x, i = .ldIVx x) ∧
    (t.faultCause = .invalidOpcode ↔ ∃ nnn, i = .sys nnn)

/-- R86: a cycle sets the draw-flag if and only if it completes and its instruction is CLS or DRW, whatever changed on
the display; no cycle clears it. -/
def Obligations.DrawFlagIsSetByClsAndDrwOnly : Prop :=
  ∀ (i : Instr) (s t : State), exec i s = .next t →
    (t.drawFlag = true ↔ s.drawFlag = true ∨ (t.fsm ≠ .halted ∧ (i = .cls ∨ ∃ x y n, i = .drw x y n)))

/-- The execution state after a cycle (R87; that `Idle` ticks like `Running` is decision D6, log 8): `Halted` by a
fault, `AwaitingKey` exactly after LD Vx, K, else `Running`. -/
def Obligations.CompletedCycleLeavesRunningOrAwaitingKey : Prop :=
  ∀ (i : Instr) (s t : State), exec i s = .next t → t.fsm ≠ .halted →
    (t.fsm = .awaitingKey ↔ ∃ x, i = .ldVxK x) ∧ (t.fsm = .running ↔ ¬ ∃ x, i = .ldVxK x)

/-- R91: a `cpu_tick` changes DT or ST only by executing LD DT, Vx or LD ST, Vx, which store a register: it never
decrements them; it never writes `key`; it never clears `draw_flag`; it executes at most one instruction. (No count of
instructions or cycles is kept: State has none.) -/
def Obligations.TickNeverCountsTimersNorTouchesKeys : Prop :=
  ∀ s t : State, cpuTick s = .next t →
    t.key = s.key ∧ (s.drawFlag = true → t.drawFlag = true) ∧
    (t = s ∨ (∃ e, t = s.enterFault e) ∨ ∃ i, exec i s = .next t ∧
      (t.dt = s.dt ∨ ∃ x, i = .ldDTVx x ∧ t.dt = s.getV x) ∧
      (t.st = s.st ∨ ∃ x, i = .ldSTVx x ∧ t.st = s.getV x))

/-- Which registers any instruction may change (R11, R12, R27; that logic and the other additions leave `V[15]` alone
is decision D15, log 11): only those its rule writes and, where it defines a flag, `V[15]`, which is then 0 or 1; `I`
changes only by LD I, ADD I and LD F, so that no memory access changes it (D16, log 13). -/
def Obligations.OnlyNamedRegistersChange : Prop :=
  ∀ (i : Instr) (s t : State), exec i s = .next t →
    (∀ r, i.mayWrite r = false → t.getV r = s.getV r) ∧
    (i.definesFlag = true → t.fsm ≠ .halted → t.getV 15 = 0x00 ∨ t.getV 15 = 0x01) ∧
    (t.i ≠ s.i → (∃ nnn, i = .ldI nnn) ∨ (∃ x, i = .addI x) ∨ ∃ x, i = .ldF x) ∧
    ((t.stack ≠ s.stack ∨ t.sp ≠ s.sp) → (∃ nnn, i = .call nnn) ∨ i = .ret) ∧
    (t.disp ≠ s.disp → i = .cls ∨ ∃ x y n, i = .drw x y n)

/-! ## Control flow (41_control_flow.md, R89) -/

/-- SYS raises InvalidOpcode with its own word, `0nnn`, from the state before the cycle (the spec's decision D4,
log 7): its effect is that fault entry. Every word `0nnn` but 00E0 and 00EE is SYS. -/
def Obligations.SysTakesInvalidOpcode : Prop :=
  ∀ (nnn : Addr12) (s : State), (nnn ≠ 0x0E0 → nnn ≠ 0x0EE → decode (encNNN 0x0 nnn) = .ok (.sys nnn)) ∧
    ∃ t, exec (.sys nnn) s = .next t ∧
      t = { s with fsm := .halted, faultCause := .invalidOpcode, faultInfo := nnn.setWidth 16 }

/-- R103: JP sets `pc` to `nnn` exactly, zero-extended, any target accepted. -/
def Obligations.JumpSetsPcExactly : Prop :=
  ∀ (nnn : Addr12) (s : State), decode (encNNN 0x1 nnn) = .ok (.jp nnn) ∧
    ∃ t, exec (.jp nnn) s = .next t ∧ t.pc.toNat = nnn.toNat ∧ t.fsm = .running ∧ Frame {} s t

/-- R102: CALL pushes the address after itself and jumps; at depth 16 it raises StackOverflow and nothing changes. -/
def Obligations.CallPushesReturnAddress : Prop :=
  ∀ (nnn : Addr12) (s : State), decode (encNNN 0x2 nnn) = .ok (.call nnn) ∧
    (∀ h : s.sp.val < 16, ∃ t, exec (.call nnn) s = .next t ∧ t.pc.toNat = nnn.toNat ∧ t.fsm = .running ∧
      t.sp.val = s.sp.val + 1 ∧ t.stack[s.sp.val] = s.pc + 2 ∧
      (∀ k : Fin 16, k.val ≠ s.sp.val → t.stack[k.val] = s.stack[k.val]) ∧ Frame { stack := true } s t) ∧
    (s.sp.val = 16 → exec (.call nnn) s =
      .next { s with fsm := .halted, faultCause := .stackOverflow, faultInfo := 0 })

/-- RET (R104) sets `pc` to the popped address with nothing added; at depth 0 it raises StackUnderflow and nothing
changes. That the slots keep their content is the model's choice for the freed one (log 26, D27). -/
def Obligations.ReturnPopsIntoPc : Prop :=
  decode 0x00EE = .ok .ret ∧ ∀ s : State,
    (∀ h : 0 < s.sp.val, ∃ t, exec .ret s = .next t ∧ t.pc = s.stack[s.sp.val - 1]'(by omega) ∧
      t.fsm = .running ∧ t.sp.val = s.sp.val - 1 ∧ t.stack = s.stack ∧ Frame { stack := true } s t) ∧
    (s.sp.val = 0 → exec .ret s =
      .next { s with fsm := .halted, faultCause := .stackUnderflow, faultInfo := 0 })

/-- JP V0, nnn sets `pc` to the sum of `nnn` and `V[0]`, at most 0x10FE, not reduced to 12 bits (R108; decision D11,
log 10). -/
def Obligations.JumpV0AddsWithoutMask : Prop :=
  ∀ (nnn : Addr12) (s : State), decode (encNNN 0xB nnn) = .ok (.jpV0 nnn) ∧
    ∃ t, exec (.jpV0 nnn) s = .next t ∧ t.pc.toNat = nnn.toNat + (s.getV 0).toNat ∧ t.pc.toNat ≤ 0x10FE ∧
      t.fsm = .running ∧ Frame {} s t

/-- R105, R106: SE and SNE with an immediate skip the next two bytes when the bytes are equal, or not equal. -/
def Obligations.SkipOnImmediate : Prop :=
  ∀ (x : Nibble) (kk : Byte) (s : State),
    decode (encXKK 0x3 x kk) = .ok (.seImm x kk) ∧ decode (encXKK 0x4 x kk) = .ok (.sneImm x kk) ∧
    (∃ t, exec (.seImm x kk) s = .next t ∧ t.fsm = .running ∧ Frame {} s t ∧
      (s.getV x = kk → t.pc = s.pc + 4) ∧ (s.getV x ≠ kk → t.pc = s.pc + 2)) ∧
    ∃ t, exec (.sneImm x kk) s = .next t ∧ t.fsm = .running ∧ Frame {} s t ∧
      (s.getV x ≠ kk → t.pc = s.pc + 4) ∧ (s.getV x = kk → t.pc = s.pc + 2)

/-- R107, R109: SE and SNE on two registers; with `x` = `y` SE always skips and SNE never does. The low nibble must
be 0. -/
def Obligations.SkipOnRegisters : Prop :=
  ∀ (x y : Nibble) (s : State),
    (∀ n : Nibble, n ≠ 0 → decode (encXYN 0x5 x y n) = .error (.invalidOpcode (encXYN 0x5 x y n)) ∧
      decode (encXYN 0x9 x y n) = .error (.invalidOpcode (encXYN 0x9 x y n))) ∧
    decode (encXYN 0x5 x y 0x0) = .ok (.seReg x y) ∧ decode (encXYN 0x9 x y 0x0) = .ok (.sneReg x y) ∧
    (∃ t, exec (.seReg x y) s = .next t ∧ t.fsm = .running ∧ Frame {} s t ∧
      (s.getV x = s.getV y → t.pc = s.pc + 4) ∧ (s.getV x ≠ s.getV y → t.pc = s.pc + 2)) ∧
    ∃ t, exec (.sneReg x y) s = .next t ∧ t.fsm = .running ∧ Frame {} s t ∧
      (s.getV x ≠ s.getV y → t.pc = s.pc + 4) ∧ (s.getV x = s.getV y → t.pc = s.pc + 2)

/-! ## Registers and ALU (42_register_alu.md) -/

/-- R122: LD Vx, kk. -/
def Obligations.LoadImmediateWritesRegister : Prop :=
  ∀ (x : Nibble) (kk : Byte) (s : State), decode (encXKK 0x6 x kk) = .ok (.ldImm x kk) ∧
    ∃ t, exec (.ldImm x kk) s = .next t ∧ t.getV x = kk ∧ t.pc = s.pc + 2 ∧ t.fsm = .running ∧
      Frame { v := onlyV x } s t

/-- R124: LD Vx, Vy. -/
def Obligations.CopyRegisterWritesRegister : Prop :=
  ∀ (x y : Nibble) (s : State), decode (encXYN 0x8 x y 0x0) = .ok (.ldReg x y) ∧
    ∃ t, exec (.ldReg x y) s = .next t ∧ t.getV x = s.getV y ∧ t.pc = s.pc + 2 ∧ t.fsm = .running ∧
      Frame { v := onlyV x } s t

/-- ADD Vx, kk wraps modulo 256 and sets no flag: `V[15]` is kept unless `x` is 15 (R123; decision D15, log 11). -/
def Obligations.AddImmediateWrapsWithoutFlag : Prop :=
  ∀ (x : Nibble) (kk : Byte) (s : State), decode (encXKK 0x7 x kk) = .ok (.addImm x kk) ∧
    ∃ t, exec (.addImm x kk) s = .next t ∧ (t.getV x).toNat = ((s.getV x).toNat + kk.toNat) % 256 ∧
      t.pc = s.pc + 2 ∧ t.fsm = .running ∧ Frame { v := onlyV x } s t

/-- OR, AND and XOR are bitwise and set no flag (R125 to R127; decision D15, log 11). -/
def Obligations.LogicIsBitwiseWithoutFlag : Prop :=
  ∀ (x y : Nibble) (s : State),
    decode (encXYN 0x8 x y 0x1) = .ok (.orReg x y) ∧ decode (encXYN 0x8 x y 0x2) = .ok (.andReg x y) ∧
    decode (encXYN 0x8 x y 0x3) = .ok (.xorReg x y) ∧
    (∃ t, exec (.orReg x y) s = .next t ∧ t.pc = s.pc + 2 ∧ t.fsm = .running ∧ Frame { v := onlyV x } s t ∧
      ∀ k < 8, (t.getV x).getLsbD k = ((s.getV x).getLsbD k || (s.getV y).getLsbD k)) ∧
    (∃ t, exec (.andReg x y) s = .next t ∧ t.pc = s.pc + 2 ∧ t.fsm = .running ∧ Frame { v := onlyV x } s t ∧
      ∀ k < 8, (t.getV x).getLsbD k = ((s.getV x).getLsbD k && (s.getV y).getLsbD k)) ∧
    ∃ t, exec (.xorReg x y) s = .next t ∧ t.pc = s.pc + 2 ∧ t.fsm = .running ∧ Frame { v := onlyV x } s t ∧
      ∀ k < 8, (t.getV x).getLsbD k = ((s.getV x).getLsbD k ^^ (s.getV y).getLsbD k)

/-- R129: ADD Vx, Vy: the sum modulo 256 into `V[x]`, then the carry into `V[15]`; with `x` = 15 the flag is what
remains. -/
def Obligations.AddRegistersSetsCarry : Prop :=
  ∀ (x y : Nibble) (s : State), decode (encXYN 0x8 x y 0x4) = .ok (.addReg x y) ∧
    ∃ t, exec (.addReg x y) s = .next t ∧
      (x ≠ 15 → (t.getV x).toNat = ((s.getV x).toNat + (s.getV y).toNat) % 256) ∧
      (t.getV 15).toNat = (if (s.getV x).toNat + (s.getV y).toNat > 255 then 1 else 0) ∧
      t.pc = s.pc + 2 ∧ t.fsm = .running ∧ Frame { v := onlyVAndFlag x } s t

/-- R130: SUB Vx, Vy: the difference modulo 256 into `V[x]`, then "no borrow" into `V[15]`. -/
def Obligations.SubtractSetsNoBorrow : Prop :=
  ∀ (x y : Nibble) (s : State), decode (encXYN 0x8 x y 0x5) = .ok (.sub x y) ∧
    ∃ t, exec (.sub x y) s = .next t ∧
      (x ≠ 15 → ((t.getV x).toNat : Int) = ((s.getV x).toNat - (s.getV y).toNat : Int) % 256) ∧
      (t.getV 15).toNat = (if (s.getV x).toNat ≥ (s.getV y).toNat then 1 else 0) ∧
      t.pc = s.pc + 2 ∧ t.fsm = .running ∧ Frame { v := onlyVAndFlag x } s t

/-- R133: SUBN Vx, Vy: `V[y] - V[x]` modulo 256 into `V[x]`, then "no borrow" into `V[15]`. -/
def Obligations.SubtractReverseSetsNoBorrow : Prop :=
  ∀ (x y : Nibble) (s : State), decode (encXYN 0x8 x y 0x7) = .ok (.subn x y) ∧
    ∃ t, exec (.subn x y) s = .next t ∧
      (x ≠ 15 → ((t.getV x).toNat : Int) = ((s.getV y).toNat - (s.getV x).toNat : Int) % 256) ∧
      (t.getV 15).toNat = (if (s.getV y).toNat ≥ (s.getV x).toNat then 1 else 0) ∧
      t.pc = s.pc + 2 ∧ t.fsm = .running ∧ Frame { v := onlyVAndFlag x } s t

/-- SHR Vx (R131): `V[x] div 2`, then the old bit 0 into `V[15]`; every `y` decodes and none matters (decision D14,
log 12). -/
def Obligations.ShiftRightSetsBitShiftedOut : Prop :=
  ∀ (x y : Nibble) (s : State), decode (encXYN 0x8 x y 0x6) = .ok (.shr x y) ∧
    (∀ z, exec (.shr x z) s = exec (.shr x y) s) ∧
    ∃ t, exec (.shr x y) s = .next t ∧ (x ≠ 15 → (t.getV x).toNat = (s.getV x).toNat / 2) ∧
      (t.getV 15).toNat = (s.getV x).toNat % 2 ∧
      t.pc = s.pc + 2 ∧ t.fsm = .running ∧ Frame { v := onlyVAndFlag x } s t

/-- SHL Vx (R134): `V[x] * 2` modulo 256, then the old bit 7 into `V[15]`; every `y` decodes and none matters (decision
D14, log 12). -/
def Obligations.ShiftLeftSetsBitShiftedOut : Prop :=
  ∀ (x y : Nibble) (s : State), decode (encXYN 0x8 x y 0xE) = .ok (.shl x y) ∧
    (∀ z, exec (.shl x z) s = exec (.shl x y) s) ∧
    ∃ t, exec (.shl x y) s = .next t ∧ (x ≠ 15 → (t.getV x).toNat = (s.getV x).toNat * 2 % 256) ∧
      (t.getV 15).toNat = (s.getV x).toNat / 128 ∧
      t.pc = s.pc + 2 ∧ t.fsm = .running ∧ Frame { v := onlyVAndFlag x } s t

/-- RND Vx, kk: a free byte AND `kk` (R132; decision D19, log 2): bits where `kk` has a 0 are 0, the others are those
of the draw, which is number `draws` of a sequence nothing constrains, and the next RND takes the next one. It holds
for every value of the draw and of `draws`. -/
def Obligations.RandomIsFreeDrawAndImmediate : Prop :=
  ∀ (x : Nibble) (kk : Byte) (s : State), decode (encXKK 0xC x kk) = .ok (.rnd x kk) ∧
    ∃ t, exec (.rnd x kk) s = .next t ∧
      (∀ k < 8, (t.getV x).getLsbD k = ((Config.rnd s.draws).getLsbD k && kk.getLsbD k)) ∧
      t.draws = s.draws + 1 ∧ t.pc = s.pc + 2 ∧ t.fsm = .running ∧ Frame { v := onlyV x, draws := true } s t

/-! ## Index register and memory (43_index_memory.md) -/

/-- R140: LD I, nnn. -/
def Obligations.LoadIndexZeroExtends : Prop :=
  ∀ (nnn : Addr12) (s : State), decode (encNNN 0xA nnn) = .ok (.ldI nnn) ∧
    ∃ t, exec (.ldI nnn) s = .next t ∧ t.i.toNat = nnn.toNat ∧ t.pc = s.pc + 2 ∧ t.fsm = .running ∧
      Frame { i := true } s t

/-- ADD I, Vx: the sum modulo 65536, no flag (R141; decision D10, log 10). LD F, Vx: `0x50 + 5 * V[x]` with the full
byte (R142; decision D17, log 13). -/
def Obligations.IndexArithmeticKeepsFlag : Prop :=
  ∀ (x : Nibble) (s : State),
    decode (encXKK 0xF x 0x1E) = .ok (.addI x) ∧ decode (encXKK 0xF x 0x29) = .ok (.ldF x) ∧
    (∃ t, exec (.addI x) s = .next t ∧ t.i.toNat = (s.i.toNat + (s.getV x).toNat) % 65536 ∧
      t.pc = s.pc + 2 ∧ t.fsm = .running ∧ Frame { i := true } s t) ∧
    ∃ t, exec (.ldF x) s = .next t ∧ t.i.toNat = 0x50 + 5 * (s.getV x).toNat ∧
      t.pc = s.pc + 2 ∧ t.fsm = .running ∧ Frame { i := true } s t

/-- LD B, Vx (R143) stores hundreds, tens and ones at `I`, `I+1`, `I+2`, and no other byte, when all three lie in RAM;
otherwise it raises IllegalAccess of the first of them that does not, and no byte is written. That a
fault changes nothing else, `pc` included, is decision D7 (log 6); that `I` is kept is D16 (log 13). -/
def Obligations.StoreBcdWritesThreeDigitsOrFaults : Prop :=
  ∀ (x : Nibble) (s : State), decode (encXKK 0xF x 0x33) = .ok (.ldB x) ∧
    (0x200 ≤ s.effAddr 0 ∧ s.effAddr 2 ≤ 0xFFF → ∃ t, exec (.ldB x) s = .next t ∧
      (t.byteAt (s.effAddr 0)).toNat = (s.getV x).toNat / 100 ∧
      (t.byteAt (s.effAddr 1)).toNat = (s.getV x).toNat / 10 % 10 ∧
      (t.byteAt (s.effAddr 2)).toNat = (s.getV x).toNat % 10 ∧
      t.pc = s.pc + 2 ∧ t.fsm = .running ∧ Frame { mem := bytesAt (s.effAddr 0) 3 } s t) ∧
    (s.effAddr 0 < 0x200 ∨ 0xFFF < s.effAddr 0 →
      exec (.ldB x) s = .next (s.enterFault (.illegalAccess (s.effAddr 0)))) ∧
    (0x200 ≤ s.effAddr 0 ∧ s.effAddr 0 ≤ 0xFFF ∧ 0xFFF < s.effAddr 2 →
      exec (.ldB x) s = .next (s.enterFault (.illegalAccess 0x1000)))

/-- LD [I], Vx (R145) stores `V[0]` to `V[x]`, `x + 1` bytes, from `I` upward, and no other byte, when all lie in RAM;
otherwise it raises IllegalAccess of the first address that does not, and no byte is written. That a
fault changes nothing else, `pc` included, is decision D7 (log 6); that `I` is kept is D16 (log 13). -/
def Obligations.StoreRegistersWritesBlockOrFaults : Prop :=
  ∀ (x : Nibble) (s : State), decode (encXKK 0xF x 0x55) = .ok (.ldIVx x) ∧
    (0x200 ≤ s.effAddr 0 ∧ s.effAddr x.toNat ≤ 0xFFF → ∃ t, exec (.ldIVx x) s = .next t ∧
      (∀ r : Nibble, r.toNat ≤ x.toNat → t.byteAt (s.effAddr r.toNat) = s.getV r) ∧
      t.pc = s.pc + 2 ∧ t.fsm = .running ∧ Frame { mem := bytesAt (s.effAddr 0) (x.toNat + 1) } s t) ∧
    (s.effAddr 0 < 0x200 ∨ 0xFFF < s.effAddr 0 →
      exec (.ldIVx x) s = .next (s.enterFault (.illegalAccess (s.effAddr 0)))) ∧
    (0x200 ≤ s.effAddr 0 ∧ s.effAddr 0 ≤ 0xFFF ∧ 0xFFF < s.effAddr x.toNat →
      exec (.ldIVx x) s = .next (s.enterFault (.illegalAccess 0x1000)))

/-- LD Vx, [I] (R146) loads `V[0]` to `V[x]` from `I` upward when every address is at most 0xFFF; otherwise it raises
IllegalAccess of the first that is not, and no register is written. That a
fault changes nothing else, `pc` included, is decision D7 (log 6); that `I` is kept is D16 (log 13). -/
def Obligations.LoadRegistersReadsBlockOrFaults : Prop :=
  ∀ (x : Nibble) (s : State), decode (encXKK 0xF x 0x65) = .ok (.ldVxI x) ∧
    (s.effAddr x.toNat ≤ 0xFFF → ∃ t, exec (.ldVxI x) s = .next t ∧
      (∀ r : Nibble, r.toNat ≤ x.toNat → t.getV r = s.byteAt (s.effAddr r.toNat)) ∧
      t.pc = s.pc + 2 ∧ t.fsm = .running ∧ Frame { v := upToV x } s t) ∧
    (0xFFF < s.effAddr x.toNat →
      exec (.ldVxI x) s = .next (s.enterFault (.illegalAccess (max (s.effAddr 0) 0x1000))))

/-! ## Display (44_display.md) -/

/-- CLS turns every pixel off and sets the draw-flag, and changes nothing else (R152, its meaning the published one;
log 4). -/
def Obligations.ClearTurnsEveryPixelOff : Prop :=
  decode 0x00E0 = .ok .cls ∧ ∀ s : State, ∃ t, exec .cls s = .next t ∧
    (∀ px py, dispGet t.disp px py = false) ∧ t.drawFlag = true ∧ t.pc = s.pc + 2 ∧ t.fsm = .running ∧
    Frame { disp := true, drawFlag := true } s t

/-- DRW (R153) reads `n` bytes from `I` upward and XORs them onto the display at `(V[x], V[y])` with wraparound, bit 7
leftmost (the blit of the pseudocode equals the closed form `spriteBit`); `V[15]` is 1 if some pixel went from on to off
and 0 otherwise; the draw-flag is set. It completes when `n` is 0 or every address is at most 0xFFF; otherwise it raises
IllegalAccess of the first that is not, and nothing changes (D7, log 6). Bit order, wrap per pixel, coordinates read
before the clear, and `n` = 0 are decision D20 (R154; log 14); that `I` is kept is D16 (log 13). -/
def Obligations.DrawXorsSpriteOntoDisplay : Prop :=
  ∀ (x y n : Nibble) (s : State), decode (encXYN 0xD x y n) = .ok (.drw x y n) ∧
    (n = 0 ∨ s.effAddr (n.toNat - 1) ≤ 0xFFF → ∃ t, exec (.drw x y n) s = .next t ∧
      (∀ px < 64, ∀ py < 32, dispGet t.disp px py =
        (dispGet s.disp px py ^^ spriteBit (spriteRows s n.toNat) (s.getV x).toNat (s.getV y).toNat px py)) ∧
      (t.getV 15 = 0x00 ∨ t.getV 15 = 0x01) ∧
      (t.getV 15 = 0x01 ↔ ∃ px < 64, ∃ py < 32, dispGet s.disp px py = true ∧ dispGet t.disp px py = false) ∧
      t.drawFlag = true ∧ t.pc = s.pc + 2 ∧ t.fsm = .running ∧
      Frame { v := onlyV 15, disp := true, drawFlag := true } s t) ∧
    (n ≠ 0 ∧ 0xFFF < s.effAddr (n.toNat - 1) →
      exec (.drw x y n) s = .next (s.enterFault (.illegalAccess (max (s.effAddr 0) 0x1000))))

/-- Drawing the same sprite twice at the same place restores the display (R155 b); onto an all-off display the first
draw leaves `V[15]` = 0 and the second, of a sprite with some 1 bit, leaves `V[15]` = 1. The place is the same when the
coordinate registers hold after the first draw what they held before (always so unless one of them is `V[15]`). -/
def Obligations.DrawingTwiceRestoresTheDisplay : Prop :=
  ∀ (x y n : Nibble) (s t u : State), exec (.drw x y n) s = .next t → t.fsm = .running →
    t.getV x = s.getV x → t.getV y = s.getV y → exec (.drw x y n) t = .next u →
    u.fsm = .running ∧ u.disp = s.disp ∧
    (s.disp = dispClear → t.getV 15 = 0x00 ∧
      (u.getV 15 = 0x01 ↔ ∃ b ∈ spriteRows s n.toNat, b ≠ 0))

/-! ## Keypad and timers (45_timers_keypad.md) -/

/-- SKP and SKNP skip when the key the low four bits of `V[x]` select is pressed, or is not (R160, R161; that only the
low four bits count is decision D18, log 13). -/
def Obligations.SkipOnKey : Prop :=
  ∀ (x k : Nibble) (s : State), k.toNat = (s.getV x).toNat % 16 →
    decode (encXKK 0xE x 0x9E) = .ok (.skp x) ∧ decode (encXKK 0xE x 0xA1) = .ok (.sknp x) ∧
    (∃ t, exec (.skp x) s = .next t ∧ t.fsm = .running ∧ Frame {} s t ∧
      (s.getKey k = true → t.pc = s.pc + 4) ∧ (s.getKey k = false → t.pc = s.pc + 2)) ∧
    ∃ t, exec (.sknp x) s = .next t ∧ t.fsm = .running ∧ Frame {} s t ∧
      (s.getKey k = false → t.pc = s.pc + 4) ∧ (s.getKey k = true → t.pc = s.pc + 2)

/-- R162: LD Vx, DT reads the delay timer and leaves it. -/
def Obligations.ReadDelayTimer : Prop :=
  ∀ (x : Nibble) (s : State), decode (encXKK 0xF x 0x07) = .ok (.ldVxDT x) ∧
    ∃ t, exec (.ldVxDT x) s = .next t ∧ t.getV x = s.dt ∧ t.pc = s.pc + 2 ∧ t.fsm = .running ∧
      Frame { v := onlyV x } s t

/-- R165, R166: LD DT, Vx and LD ST, Vx load a timer from a register. -/
def Obligations.SetTimers : Prop :=
  ∀ (x : Nibble) (s : State),
    decode (encXKK 0xF x 0x15) = .ok (.ldDTVx x) ∧ decode (encXKK 0xF x 0x18) = .ok (.ldSTVx x) ∧
    (∃ t, exec (.ldDTVx x) s = .next t ∧ t.dt = s.getV x ∧ t.pc = s.pc + 2 ∧ t.fsm = .running ∧
      Frame { dt := true } s t) ∧
    ∃ t, exec (.ldSTVx x) s = .next t ∧ t.st = s.getV x ∧ t.pc = s.pc + 2 ∧ t.fsm = .running ∧
      Frame { st := true } s t

/-- LD Vx, K (R164; decision D22, log 16): its cycle latches `x`, advances `pc` and waits, whatever keys are held; then
every tick changes nothing, a release only clears its latch, and the first press, of any key whatever its latch held,
writes that key's index to `V[x]` and goes on, with `pc` where it was. -/
def Obligations.WaitForKeyEndsOnAnyPress : Prop :=
  ∀ (x : Nibble) (s : State), decode (encXKK 0xF x 0x0A) = .ok (.ldVxK x) ∧
    ∃ t, exec (.ldVxK x) s = .next t ∧ t.fsm = .awaitingKey ∧ t.waitX = x ∧ t.pc = s.pc + 2 ∧
      Frame { waitX := true } s t ∧
      perform .cpuTick t = .next t ∧
      (∀ k : Nibble, perform (.setKey k false) t = .next (t.setKeyLatch k false)) ∧
      ∀ k : Nibble, ∃ u, perform (.setKey k true) t = .next u ∧ (u.getV x).toNat = k.toNat ∧
        u.getKey k = true ∧ (∀ j, j ≠ k → u.getKey j = t.getKey j) ∧ u.fsm = .running ∧ u.pc = t.pc ∧
        Frame { v := onlyV x, key := true } t u

/-! ## Events (60_exceptions.md, 70_reset_and_hazards.md) -/

/-- `timer_tick` counts each timer down by 1 while nonzero and never below 0, and changes nothing else, in every `fsm`
state (R185; decision D23, log 17); `ack_draw` clears the draw-flag and changes nothing else (R191; D21, log 15). -/
def Obligations.TimerTickAndAckDrawEffects : Prop :=
  ∀ s : State,
    (∃ t, perform .timerTick s = .next t ∧ t.dt.toNat = s.dt.toNat - 1 ∧ t.st.toNat = s.st.toNat - 1 ∧
      t.pc = s.pc ∧ t.fsm = s.fsm ∧ Frame { dt := true, st := true } s t) ∧
    ∃ t, perform .ackDraw s = .next t ∧ t.drawFlag = false ∧ t.pc = s.pc ∧ t.fsm = s.fsm ∧
      Frame { drawFlag := true } s t

/-- `set_key` (R188; that the index is four bits is decision D34, log 23) sets the latch in every `fsm` state; in
`AwaitingKey` a press also writes the index to `V[wait_x]` and resumes; nothing else changes, and never `pc`. -/
def Obligations.SetKeyLatchesAndEndsTheWait : Prop :=
  ∀ (k : Nibble) (p : Bool) (s : State), ∃ t, perform (.setKey k p) s = .next t ∧
    t.getKey k = p ∧ (∀ j, j ≠ k → t.getKey j = s.getKey j) ∧ t.pc = s.pc ∧
    (s.fsm = .awaitingKey ∧ p = true → (t.getV s.waitX).toNat = k.toNat ∧ t.fsm = .running ∧
      Frame { v := onlyV s.waitX, key := true } s t) ∧
    (¬ (s.fsm = .awaitingKey ∧ p = true) → t.fsm = s.fsm ∧ Frame { key := true } s t)

/-- `load` (R203) writes a payload of at most 0xE00 bytes to RAM from 0x200 upward, and nothing else, and answers `ok`;
a longer one changes nothing and answers InvalidROM. That it acts alike in every `fsm` state is decision D25
(R204; log 18). -/
def Obligations.LoadWritesPayloadOrNothing : Prop :=
  ∀ (bytes : List Byte) (s : State),
    (bytes.length ≤ 0xE00 → ∃ t, perform (.load bytes) s = .next t ∧ response (.load bytes) s = .ok ∧
      (∀ k, k < bytes.length → bytes[k]? = some (t.byteAt (0x200 + k))) ∧ t.pc = s.pc ∧ t.fsm = s.fsm ∧
      Frame { mem := bytesAt 0x200 bytes.length } s t) ∧
    (0xE00 < bytes.length → perform (.load bytes) s = .next s ∧ response (.load bytes) s = .invalidRom)

/-- `reset`, from every state, leaves the reset state in everything the spec names (R200, R201; the engine's own reset
values are decision D26, log 19), so it does not depend on the state before and doing it twice is doing it once; the
model's draws and the host's later events go on (log 1, log 2). -/
def Obligations.ResetEventRestoresTheResetState : Prop :=
  ∀ s : State, ∃ t, perform .reset s = .next t ∧ response .reset s = .ok ∧
    sameMachine (State.resetWith s.fontTable) t ∧ t.draws = s.draws ∧ t.events = s.events ∧
    perform .reset t = .next t

/-- The reset values (R30), for every `FONT_TABLE` (R29): registers, `I`, stack, timers, keys and display 0, `pc` 0x200,
the font at 0x050 to 0x09F, every other byte 0 (`Idle`, the fault fields, the draw-flag and `wait_x` are decision D26,
log 19). `State.reset` is this state with the spec's default font (log 3). -/
def Obligations.ResetStateHoldsTheStatedValues : Prop :=
  State.reset = State.resetWith defaultFont ∧ ∀ f : FontTable,
    let s := State.resetWith f
    (∀ x, s.getV x = 0) ∧ s.i = 0 ∧ s.pc = 0x0200 ∧ s.sp.val = 0 ∧ (∀ k : Fin 16, s.stack[k.val] = 0) ∧
    (∀ k : Fin 80, s.byteAt (0x050 + k.val) = f[k.val]) ∧ (∀ a, a < 0x050 ∨ 0x09F < a → s.byteAt a = 0) ∧
    (∀ px py, dispGet s.disp px py = false) ∧ s.dt = 0 ∧ s.st = 0 ∧ (∀ k, s.getKey k = false) ∧
    s.fsm = .idle ∧ s.faultCause = .none ∧ s.faultInfo = 0 ∧ s.drawFlag = false ∧ s.waitX = 0

/-- Nothing but `reset` leaves `Halted` (R177; that it leads to `Idle` is decision D26, log 19) or changes the latched
fault, so faults do not nest; `reset` leaves it and erases the program. -/
def Obligations.OnlyResetLeavesHalted : Prop :=
  ∀ (e : Event) (s t : State), s.fsm = .halted → perform e s = .next t →
    (e ≠ .reset → t.fsm = .halted ∧ t.faultCause = s.faultCause ∧ t.faultInfo = s.faultInfo) ∧
    (e = .reset → t.fsm = .idle ∧ t.faultCause = .none ∧ ∀ a, 0x200 ≤ a → t.byteAt a = 0)

/-- Pairs of events whose order does not matter (R181, decision D24, log 1): a `cpu_tick` with a `timer_tick`, with a
`set_key` while no key is awaited, and with an `ack_draw`, unless the instruction executed is one of those R181 names.
-/
def Obligations.CycleCommutesWithUnrelatedEvents : Prop :=
  ∀ (i : Instr) (s t : State), exec i s = .next t →
    ((¬ (∃ x, i = .ldVxDT x) ∧ ¬ (∃ x, i = .ldDTVx x) ∧ ¬ (∃ x, i = .ldSTVx x)) →
      exec i s.timerTick = .next t.timerTick) ∧
    ((¬ (∃ x, i = .skp x) ∧ ¬ (∃ x, i = .sknp x) ∧ ¬ (∃ x, i = .ldVxK x) ∧ s.fsm ≠ .awaitingKey) →
      ∀ k p, exec i (s.setKeyEvent k p) = .next (t.setKeyEvent k p)) ∧
    ((i ≠ .cls ∧ ¬ (∃ x y n, i = .drw x y n)) → exec i s.ackDraw = .next t.ackDraw)

/-! ## Invariants (10_state.md section 14) -/

/-- The invariant holds at reset, with the default font and with every other `FONT_TABLE`. -/
def Obligations.InvariantHoldsAtReset : Prop := Inv State.reset ∧ ∀ f : FontTable, Inv (State.resetWith f)

/-- Every step, whatever event it is, keeps the invariant of R32: the memory list canonical and RAM only, a latched
cause exactly when halted, live stack entries advanced program counters, `pc` at most 0x10FE. -/
def Obligations.EveryStepKeepsTheInvariant : Prop :=
  ∀ s t : State, Inv s → step s = .next t → Inv t

/-- The reserved and font bytes can never be changed by anything (R43, R32 b): from every state that meets the
invariant, after any number of steps under any schedule of events, they hold their reset values, for every
`FONT_TABLE`. -/
def Obligations.LowMemoryNeverChanges : Prop :=
  ∀ (k : Nat) (s t : State), Inv s → Host.Core.run Sys2Proof.core k s = .next t →
    ∀ a, a < 0x200 → t.byteAt a = (State.resetWith s.fontTable).byteAt a

/-! ## The parameter FONT_TABLE (00_scope.md R3, 10_state.md R29) -/

/-- `FONT_TABLE` is a parameter, no state (R3, R29, R31; log 3): no step changes it, and after any `reset` event the
font region holds it, whatever memory held before. -/
def Obligations.FontTableIsAFixedParameter : Prop :=
  (∀ s t : State, step s = .next t → t.fontTable = s.fontTable) ∧
  ∀ s : State, ∃ t, perform .reset s = .next t ∧ t.fontTable = s.fontTable ∧
    ∀ k : Fin 80, t.byteAt (0x050 + k.val) = s.fontTable[k.val]
end

