-- ==== Sys2Proof/Laws/Memory.lean ====
section
/-! SUPPORT. The laws of memory: read after write, and that every memory operation keeps the canonical form and lists
nothing outside RAM. -/

namespace Sys2Proof.Machine

variable (f : FontTable)

/-! ## Read after write -/

theorem Memory.read_erase (m : Memory) (a c : Nat) :
    Memory.read f (Memory.erase m a) c = if a = c then resetByte f c else Memory.read f m c := by
  induction m with
  | nil => simp [Memory.erase, Memory.read]
  | cons hd m ih =>
    obtain ⟨k, b⟩ := hd
    simp only [Memory.erase, List.filter_cons] at ih ⊢
    by_cases hk : k = a
    · subst hk
      by_cases hc : k = c <;> simp_all [Memory.read]
    · by_cases hc : k = c
      · subst hc
        simp [Memory.read, hk, Ne.symm hk]
      · simp [Memory.read, hk, hc, ih]

theorem Memory.read_place (m : Memory) (a c : Nat) (b : Byte) (h : ∀ x ∈ m, x.1 ≠ a) :
    Memory.read f (Memory.place m a b) c = if a = c then b else Memory.read f m c := by
  induction m with
  | nil => simp [Memory.place, Memory.read]
  | cons hd m ih =>
    obtain ⟨k, b'⟩ := hd
    have hk : k ≠ a := h (k, b') (by simp)
    have ih := ih fun x hx => h x (by simp [hx])
    by_cases hlt : a < k
    · simp [Memory.place, Memory.read, hlt]
    · by_cases hc : k = c
      · subst hc
        simp [Memory.place, Memory.read, hlt, Ne.symm hk]
      · simp [Memory.place, Memory.read, hlt, hc, ih]

theorem Memory.ne_of_mem_erase (m : Memory) (a : Nat) : ∀ x ∈ Memory.erase m a, x.1 ≠ a := by
  intro x hx
  simpa using (List.mem_filter.mp hx).2

/-- Read after write: the written byte at its address, every other address as before. No premise: it holds of every
list, canonical or not. -/
theorem Memory.read_write (m : Memory) (a c : Nat) (b : Byte) :
    Memory.read f (Memory.write f m a b) c = if a = c then b else Memory.read f m c := by
  unfold Memory.write
  split
  · next hb => rw [Memory.read_erase]; split <;> simp_all
  · rw [Memory.read_place _ _ _ _ _ (Memory.ne_of_mem_erase m a), Memory.read_erase]
    split <;> simp_all

/-- What memory holds after writing `bs` at `a` upward. -/
theorem Memory.read_writeBytes (bs : List Byte) (m : Memory) (a c : Nat) :
    Memory.read f (Memory.writeBytes f m a bs) c =
      if a ≤ c ∧ c < a + bs.length then bs.getD (c - a) 0 else Memory.read f m c := by
  induction bs generalizing m a with
  | nil =>
    simp [Memory.writeBytes]
  | cons b bs ih =>
    rw [Memory.writeBytes, ih, Memory.read_write]
    by_cases h1 : a = c
    · subst h1
      have h2 : ¬ (a + 1 ≤ a ∧ a < a + 1 + bs.length) := by omega
      simp
    · by_cases h2 : a + 1 ≤ c ∧ c < a + 1 + bs.length
      · have h3 : a ≤ c ∧ c < a + (b :: bs).length := by simp; omega
        obtain ⟨k, rfl⟩ : ∃ k, c = a + 1 + k := ⟨c - (a + 1), by omega⟩
        have e1 : a + 1 + k - (a + 1) = k := by omega
        have e2 : a + 1 + k - a = k + 1 := by omega
        rw [if_pos h2, if_pos h3, e1, e2, List.getD_cons_succ]
      · have h3 : ¬ (a ≤ c ∧ c < a + (b :: bs).length) := by simp; omega
        rw [if_neg h2, if_neg h1, if_neg h3]

/-! ## The canonical form -/

theorem Memory.risingFrom_mono (m : Memory) {lo lo' : Nat} (h : lo' ≤ lo)
    (hm : Memory.risingFrom lo m = true) : Memory.risingFrom lo' m = true := by
  cases m with
  | nil => rfl
  | cons hd m =>
    simp only [Memory.risingFrom, Bool.and_eq_true, decide_eq_true_eq] at hm ⊢
    exact ⟨by omega, hm.2⟩

theorem Memory.risingFrom_erase (m : Memory) (a lo : Nat) (h : Memory.risingFrom lo m = true) :
    Memory.risingFrom lo (Memory.erase m a) = true := by
  induction m generalizing lo with
  | nil => rfl
  | cons hd m ih =>
    simp only [Memory.risingFrom, Bool.and_eq_true, decide_eq_true_eq] at h
    simp only [Memory.erase, List.filter_cons] at ih ⊢
    split
    · simp only [Memory.risingFrom, Bool.and_eq_true, decide_eq_true_eq]
      exact ⟨h.1, ih _ h.2⟩
    · exact Memory.risingFrom_mono _ (by omega) (ih _ h.2)

theorem Memory.risingFrom_place (m : Memory) (a lo : Nat) (b : Byte) (hlo : lo ≤ a) (hne : ∀ x ∈ m, x.1 ≠ a)
    (h : Memory.risingFrom lo m = true) : Memory.risingFrom lo (Memory.place m a b) = true := by
  induction m generalizing lo with
  | nil => simp [Memory.place, Memory.risingFrom, hlo]
  | cons hd m ih =>
    obtain ⟨k, c⟩ := hd
    have hk : k ≠ a := hne (k, c) (by simp)
    simp only [Memory.risingFrom, Bool.and_eq_true, decide_eq_true_eq] at h
    by_cases hlt : a < k
    · simp only [Memory.place, hlt, if_true, Memory.risingFrom, Bool.and_eq_true, decide_eq_true_eq]
      exact ⟨hlo, by omega, h.2⟩
    · simp only [Memory.place, hlt, if_false, Memory.risingFrom, Bool.and_eq_true, decide_eq_true_eq]
      exact ⟨h.1, ih _ (by omega) (fun x hx => hne x (by simp [hx])) h.2⟩

theorem Memory.mem_place (m : Memory) (a : Nat) (b : Byte) (x : Host.Cell) :
    x ∈ Memory.place m a b → x = (a, b) ∨ x ∈ m := by
  induction m with
  | nil => simp [Memory.place]
  | cons hd m ih =>
    intro h
    by_cases hlt : a < hd.1
    · simpa [Memory.place, hlt] using h
    · simp only [Memory.place, hlt, if_false, List.mem_cons] at h
      rcases h with h | h
      · simp [h]
      · rcases ih h with h | h <;> simp [h]

/-- Every cell of a written memory is the written one, not holding the reset byte, or one that was listed before. -/
theorem Memory.mem_write (m : Memory) (a : Nat) (b : Byte) (x : Host.Cell) (h : x ∈ Memory.write f m a b) :
    (x = (a, b) ∧ b ≠ resetByte f a) ∨ x ∈ m := by
  unfold Memory.write at h
  split at h
  · exact .inr (List.mem_filter.mp h).1
  · next hb =>
    rcases Memory.mem_place _ _ _ _ h with h | h
    · exact .inl ⟨h, hb⟩
    · exact .inr (List.mem_filter.mp h).1

/-- A write keeps the canonical form. -/
theorem Memory.wf_write (m : Memory) (a : Nat) (b : Byte) (h : Memory.wf f m = true) :
    Memory.wf f (Memory.write f m a b) = true := by
  simp only [Memory.wf, Bool.and_eq_true, Memory.noReset, List.all_eq_true] at h ⊢
  refine ⟨?_, fun x hx => ?_⟩
  · unfold Memory.write
    have he := Memory.risingFrom_erase m a 0 h.1
    split
    · exact he
    · exact Memory.risingFrom_place _ _ _ _ (by omega) (Memory.ne_of_mem_erase m a) he
  · rcases Memory.mem_write f m a b x hx with ⟨rfl, hb⟩ | hx
    · simpa using hb
    · exact h.2 x hx

/-- A write in RAM lists nothing outside RAM. -/
theorem Memory.onlyRam_write (m : Memory) (a : Nat) (b : Byte) (ha : 0x200 ≤ a ∧ a ≤ 0xFFF)
    (h : Memory.onlyRam m = true) : Memory.onlyRam (Memory.write f m a b) = true := by
  simp only [Memory.onlyRam, List.all_eq_true] at h ⊢
  intro x hx
  rcases Memory.mem_write f m a b x hx with ⟨rfl, -⟩ | hx
  · simpa using ha
  · exact h x hx

/-- Writing a list of bytes keeps the canonical form. -/
theorem Memory.wf_writeBytes (bs : List Byte) (m : Memory) (a : Nat) (h : Memory.wf f m = true) :
    Memory.wf f (Memory.writeBytes f m a bs) = true := by
  induction bs generalizing m a with
  | nil => exact h
  | cons b bs ih => exact ih _ _ (Memory.wf_write f m a b h)

/-- Writing a list of bytes inside RAM lists nothing outside RAM. -/
theorem Memory.onlyRam_writeBytes (bs : List Byte) (m : Memory) (a : Nat) (ha : 0x200 ≤ a)
    (hb : a + bs.length ≤ 0x1000) (h : Memory.onlyRam m = true) :
    Memory.onlyRam (Memory.writeBytes f m a bs) = true := by
  induction bs generalizing m a with
  | nil => exact h
  | cons b bs ih =>
    simp only [List.length_cons] at hb
    exact ih _ _ (by omega) (by omega) (Memory.onlyRam_write f m a b ⟨ha, by omega⟩ h)

/-- An address outside RAM reads as its reset byte where only RAM is listed (R32 b, R43). -/
theorem Memory.read_of_onlyRam (m : Memory) (c : Nat) (h : Memory.onlyRam m = true) (hc : c < 0x200) :
    Memory.read f m c = resetByte f c := by
  induction m with
  | nil => rfl
  | cons hd m ih =>
    simp only [Memory.onlyRam, List.all_cons, Bool.and_eq_true, decide_eq_true_eq] at h ih
    rw [Memory.read, if_neg (by omega)]
    exact ih h.2

/-- An address below every listed one reads as its reset byte. -/
theorem Memory.read_lt_of_risingFrom (m : Memory) (lo c : Nat) (h : Memory.risingFrom lo m = true) (hc : c < lo) :
    Memory.read f m c = resetByte f c := by
  induction m generalizing lo with
  | nil => rfl
  | cons hd m ih =>
    simp only [Memory.risingFrom, Bool.and_eq_true, decide_eq_true_eq] at h
    rw [Memory.read, if_neg (by omega)]
    exact ih _ h.2 (by omega)

/-- Equal memories are equal data: two canonical lists that read the same everywhere are the same list. -/
theorem Memory.ext_of_rising (m m' : Memory) (lo : Nat) (h : Memory.risingFrom lo m = true)
    (h' : Memory.risingFrom lo m' = true) (hn : Memory.noReset f m = true) (hn' : Memory.noReset f m' = true)
    (hr : ∀ a, Memory.read f m a = Memory.read f m' a) : m = m' := by
  induction m generalizing m' lo with
  | nil =>
    cases m' with
    | nil => rfl
    | cons hd m' =>
      simp only [Memory.noReset, List.all_cons, Bool.and_eq_true, bne_iff_ne] at hn'
      exact absurd (by simpa [Memory.read] using (hr hd.1).symm) hn'.1
  | cons hd m ih =>
    simp only [Memory.noReset, List.all_cons, Bool.and_eq_true, bne_iff_ne] at hn
    simp only [Memory.risingFrom, Bool.and_eq_true, decide_eq_true_eq] at h
    cases m' with
    | nil => exact absurd (by simpa [Memory.read] using hr hd.1) hn.1
    | cons hd' m' =>
      simp only [Memory.noReset, List.all_cons, Bool.and_eq_true, bne_iff_ne] at hn'
      simp only [Memory.risingFrom, Bool.and_eq_true, decide_eq_true_eq] at h'
      have below : ∀ c, c < hd.1 + 1 → Memory.read f m c = resetByte f c := fun c hc =>
        Memory.read_lt_of_risingFrom f m _ c h.2 hc
      have below' : ∀ c, c < hd'.1 + 1 → Memory.read f m' c = resetByte f c := fun c hc =>
        Memory.read_lt_of_risingFrom f m' _ c h'.2 hc
      have hk : hd.1 = hd'.1 := by
        rcases Nat.lt_trichotomy hd.1 hd'.1 with hlt | heq | hgt
        · have := hr hd.1
          simp only [Memory.read, if_true, if_neg (show ¬ hd'.1 = hd.1 by omega), below' hd.1 (by omega)] at this
          exact absurd this hn.1
        · exact heq
        · have := hr hd'.1
          simp only [Memory.read, if_true, if_neg (show ¬ hd.1 = hd'.1 by omega), below hd'.1 (by omega)] at this
          exact absurd this.symm hn'.1
      have hb : hd.2 = hd'.2 := by simpa [Memory.read, hk] using hr hd.1
      have htl : m = m' := by
        refine ih m' (hd.1 + 1) h.2 (by rw [hk]; exact h'.2) hn.2 hn'.2 fun c => ?_
        by_cases hc : c = hd.1
        · rw [below c (by omega), below' c (by omega)]
        · have := hr c
          simpa only [Memory.read, if_neg (Ne.symm hc), if_neg (show ¬ hd'.1 = c by omega)] using this
      rw [htl, Prod.ext hk hb]

/-- `Memory.ext_of_rising` in terms of the canonical form. -/
theorem Memory.ext_of_wf (m m' : Memory) (h : Memory.wf f m = true) (h' : Memory.wf f m' = true)
    (hr : ∀ a, Memory.read f m a = Memory.read f m' a) : m = m' := by
  simp only [Memory.wf, Bool.and_eq_true] at h h'
  exact Memory.ext_of_rising f m m' 0 h.1 h'.1 h.2 h'.2 hr

/-! ## The regions (R41, R46, R47) -/

theorem readable_iff (a : Nat) : readable a = true ↔ a ≤ 0xFFF := by
  unfold readable regionOf
  repeat' split
  all_goals simp; omega

theorem writable_iff (a : Nat) : writable a = true ↔ 0x200 ≤ a ∧ a ≤ 0xFFF := by
  unfold writable regionOf
  repeat' split
  all_goals simp; omega

end Sys2Proof.Machine
end

