-- ==== Sys2Proof/Laws/State.lean ====
section
/-! SUPPORT. One lemma per field per update of the state, each true by rfl, so that no later proof unfolds a record
update; and what the register and key accessors give after an update. -/

namespace Sys2Proof.Machine

variable (s : State)


/-! ### setV -/

@[simp] theorem State.setV_v (x : Nibble) (b : Byte) : (s.setV x b).v = s.v.set x.toNat b := rfl
@[simp] theorem State.setV_i (x : Nibble) (b : Byte) : (s.setV x b).i = s.i := rfl
@[simp] theorem State.setV_pc (x : Nibble) (b : Byte) : (s.setV x b).pc = s.pc := rfl
@[simp] theorem State.setV_stack (x : Nibble) (b : Byte) : (s.setV x b).stack = s.stack := rfl
@[simp] theorem State.setV_sp (x : Nibble) (b : Byte) : (s.setV x b).sp = s.sp := rfl
@[simp] theorem State.setV_mem (x : Nibble) (b : Byte) : (s.setV x b).mem = s.mem := rfl
@[simp] theorem State.setV_disp (x : Nibble) (b : Byte) : (s.setV x b).disp = s.disp := rfl
@[simp] theorem State.setV_dt (x : Nibble) (b : Byte) : (s.setV x b).dt = s.dt := rfl
@[simp] theorem State.setV_st (x : Nibble) (b : Byte) : (s.setV x b).st = s.st := rfl
@[simp] theorem State.setV_key (x : Nibble) (b : Byte) : (s.setV x b).key = s.key := rfl
@[simp] theorem State.setV_fsm (x : Nibble) (b : Byte) : (s.setV x b).fsm = s.fsm := rfl
@[simp] theorem State.setV_faultCause (x : Nibble) (b : Byte) : (s.setV x b).faultCause = s.faultCause := rfl
@[simp] theorem State.setV_faultInfo (x : Nibble) (b : Byte) : (s.setV x b).faultInfo = s.faultInfo := rfl
@[simp] theorem State.setV_drawFlag (x : Nibble) (b : Byte) : (s.setV x b).drawFlag = s.drawFlag := rfl
@[simp] theorem State.setV_waitX (x : Nibble) (b : Byte) : (s.setV x b).waitX = s.waitX := rfl
@[simp] theorem State.setV_fontTable (x : Nibble) (b : Byte) : (s.setV x b).fontTable = s.fontTable := rfl
@[simp] theorem State.setV_draws (x : Nibble) (b : Byte) : (s.setV x b).draws = s.draws := rfl
@[simp] theorem State.setV_events (x : Nibble) (b : Byte) : (s.setV x b).events = s.events := rfl

/-! ### setI -/

@[simp] theorem State.setI_v (a : Word) : (s.setI a).v = s.v := rfl
@[simp] theorem State.setI_i (a : Word) : (s.setI a).i = a := rfl
@[simp] theorem State.setI_pc (a : Word) : (s.setI a).pc = s.pc := rfl
@[simp] theorem State.setI_stack (a : Word) : (s.setI a).stack = s.stack := rfl
@[simp] theorem State.setI_sp (a : Word) : (s.setI a).sp = s.sp := rfl
@[simp] theorem State.setI_mem (a : Word) : (s.setI a).mem = s.mem := rfl
@[simp] theorem State.setI_disp (a : Word) : (s.setI a).disp = s.disp := rfl
@[simp] theorem State.setI_dt (a : Word) : (s.setI a).dt = s.dt := rfl
@[simp] theorem State.setI_st (a : Word) : (s.setI a).st = s.st := rfl
@[simp] theorem State.setI_key (a : Word) : (s.setI a).key = s.key := rfl
@[simp] theorem State.setI_fsm (a : Word) : (s.setI a).fsm = s.fsm := rfl
@[simp] theorem State.setI_faultCause (a : Word) : (s.setI a).faultCause = s.faultCause := rfl
@[simp] theorem State.setI_faultInfo (a : Word) : (s.setI a).faultInfo = s.faultInfo := rfl
@[simp] theorem State.setI_drawFlag (a : Word) : (s.setI a).drawFlag = s.drawFlag := rfl
@[simp] theorem State.setI_waitX (a : Word) : (s.setI a).waitX = s.waitX := rfl
@[simp] theorem State.setI_fontTable (a : Word) : (s.setI a).fontTable = s.fontTable := rfl
@[simp] theorem State.setI_draws (a : Word) : (s.setI a).draws = s.draws := rfl
@[simp] theorem State.setI_events (a : Word) : (s.setI a).events = s.events := rfl

/-! ### setPc -/

@[simp] theorem State.setPc_v (a : Word) : (s.setPc a).v = s.v := rfl
@[simp] theorem State.setPc_i (a : Word) : (s.setPc a).i = s.i := rfl
@[simp] theorem State.setPc_pc (a : Word) : (s.setPc a).pc = a := rfl
@[simp] theorem State.setPc_stack (a : Word) : (s.setPc a).stack = s.stack := rfl
@[simp] theorem State.setPc_sp (a : Word) : (s.setPc a).sp = s.sp := rfl
@[simp] theorem State.setPc_mem (a : Word) : (s.setPc a).mem = s.mem := rfl
@[simp] theorem State.setPc_disp (a : Word) : (s.setPc a).disp = s.disp := rfl
@[simp] theorem State.setPc_dt (a : Word) : (s.setPc a).dt = s.dt := rfl
@[simp] theorem State.setPc_st (a : Word) : (s.setPc a).st = s.st := rfl
@[simp] theorem State.setPc_key (a : Word) : (s.setPc a).key = s.key := rfl
@[simp] theorem State.setPc_fsm (a : Word) : (s.setPc a).fsm = s.fsm := rfl
@[simp] theorem State.setPc_faultCause (a : Word) : (s.setPc a).faultCause = s.faultCause := rfl
@[simp] theorem State.setPc_faultInfo (a : Word) : (s.setPc a).faultInfo = s.faultInfo := rfl
@[simp] theorem State.setPc_drawFlag (a : Word) : (s.setPc a).drawFlag = s.drawFlag := rfl
@[simp] theorem State.setPc_waitX (a : Word) : (s.setPc a).waitX = s.waitX := rfl
@[simp] theorem State.setPc_fontTable (a : Word) : (s.setPc a).fontTable = s.fontTable := rfl
@[simp] theorem State.setPc_draws (a : Word) : (s.setPc a).draws = s.draws := rfl
@[simp] theorem State.setPc_events (a : Word) : (s.setPc a).events = s.events := rfl

/-! ### setMem -/

@[simp] theorem State.setMem_v (m : Memory) : (s.setMem m).v = s.v := rfl
@[simp] theorem State.setMem_i (m : Memory) : (s.setMem m).i = s.i := rfl
@[simp] theorem State.setMem_pc (m : Memory) : (s.setMem m).pc = s.pc := rfl
@[simp] theorem State.setMem_stack (m : Memory) : (s.setMem m).stack = s.stack := rfl
@[simp] theorem State.setMem_sp (m : Memory) : (s.setMem m).sp = s.sp := rfl
@[simp] theorem State.setMem_mem (m : Memory) : (s.setMem m).mem = m := rfl
@[simp] theorem State.setMem_disp (m : Memory) : (s.setMem m).disp = s.disp := rfl
@[simp] theorem State.setMem_dt (m : Memory) : (s.setMem m).dt = s.dt := rfl
@[simp] theorem State.setMem_st (m : Memory) : (s.setMem m).st = s.st := rfl
@[simp] theorem State.setMem_key (m : Memory) : (s.setMem m).key = s.key := rfl
@[simp] theorem State.setMem_fsm (m : Memory) : (s.setMem m).fsm = s.fsm := rfl
@[simp] theorem State.setMem_faultCause (m : Memory) : (s.setMem m).faultCause = s.faultCause := rfl
@[simp] theorem State.setMem_faultInfo (m : Memory) : (s.setMem m).faultInfo = s.faultInfo := rfl
@[simp] theorem State.setMem_drawFlag (m : Memory) : (s.setMem m).drawFlag = s.drawFlag := rfl
@[simp] theorem State.setMem_waitX (m : Memory) : (s.setMem m).waitX = s.waitX := rfl
@[simp] theorem State.setMem_fontTable (m : Memory) : (s.setMem m).fontTable = s.fontTable := rfl
@[simp] theorem State.setMem_draws (m : Memory) : (s.setMem m).draws = s.draws := rfl
@[simp] theorem State.setMem_events (m : Memory) : (s.setMem m).events = s.events := rfl

/-! ### setDisp -/

@[simp] theorem State.setDisp_v (d : Display) : (s.setDisp d).v = s.v := rfl
@[simp] theorem State.setDisp_i (d : Display) : (s.setDisp d).i = s.i := rfl
@[simp] theorem State.setDisp_pc (d : Display) : (s.setDisp d).pc = s.pc := rfl
@[simp] theorem State.setDisp_stack (d : Display) : (s.setDisp d).stack = s.stack := rfl
@[simp] theorem State.setDisp_sp (d : Display) : (s.setDisp d).sp = s.sp := rfl
@[simp] theorem State.setDisp_mem (d : Display) : (s.setDisp d).mem = s.mem := rfl
@[simp] theorem State.setDisp_disp (d : Display) : (s.setDisp d).disp = d := rfl
@[simp] theorem State.setDisp_dt (d : Display) : (s.setDisp d).dt = s.dt := rfl
@[simp] theorem State.setDisp_st (d : Display) : (s.setDisp d).st = s.st := rfl
@[simp] theorem State.setDisp_key (d : Display) : (s.setDisp d).key = s.key := rfl
@[simp] theorem State.setDisp_fsm (d : Display) : (s.setDisp d).fsm = s.fsm := rfl
@[simp] theorem State.setDisp_faultCause (d : Display) : (s.setDisp d).faultCause = s.faultCause := rfl
@[simp] theorem State.setDisp_faultInfo (d : Display) : (s.setDisp d).faultInfo = s.faultInfo := rfl
@[simp] theorem State.setDisp_drawFlag (d : Display) : (s.setDisp d).drawFlag = s.drawFlag := rfl
@[simp] theorem State.setDisp_waitX (d : Display) : (s.setDisp d).waitX = s.waitX := rfl
@[simp] theorem State.setDisp_fontTable (d : Display) : (s.setDisp d).fontTable = s.fontTable := rfl
@[simp] theorem State.setDisp_draws (d : Display) : (s.setDisp d).draws = s.draws := rfl
@[simp] theorem State.setDisp_events (d : Display) : (s.setDisp d).events = s.events := rfl

/-! ### setDT -/

@[simp] theorem State.setDT_v (b : Byte) : (s.setDT b).v = s.v := rfl
@[simp] theorem State.setDT_i (b : Byte) : (s.setDT b).i = s.i := rfl
@[simp] theorem State.setDT_pc (b : Byte) : (s.setDT b).pc = s.pc := rfl
@[simp] theorem State.setDT_stack (b : Byte) : (s.setDT b).stack = s.stack := rfl
@[simp] theorem State.setDT_sp (b : Byte) : (s.setDT b).sp = s.sp := rfl
@[simp] theorem State.setDT_mem (b : Byte) : (s.setDT b).mem = s.mem := rfl
@[simp] theorem State.setDT_disp (b : Byte) : (s.setDT b).disp = s.disp := rfl
@[simp] theorem State.setDT_dt (b : Byte) : (s.setDT b).dt = b := rfl
@[simp] theorem State.setDT_st (b : Byte) : (s.setDT b).st = s.st := rfl
@[simp] theorem State.setDT_key (b : Byte) : (s.setDT b).key = s.key := rfl
@[simp] theorem State.setDT_fsm (b : Byte) : (s.setDT b).fsm = s.fsm := rfl
@[simp] theorem State.setDT_faultCause (b : Byte) : (s.setDT b).faultCause = s.faultCause := rfl
@[simp] theorem State.setDT_faultInfo (b : Byte) : (s.setDT b).faultInfo = s.faultInfo := rfl
@[simp] theorem State.setDT_drawFlag (b : Byte) : (s.setDT b).drawFlag = s.drawFlag := rfl
@[simp] theorem State.setDT_waitX (b : Byte) : (s.setDT b).waitX = s.waitX := rfl
@[simp] theorem State.setDT_fontTable (b : Byte) : (s.setDT b).fontTable = s.fontTable := rfl
@[simp] theorem State.setDT_draws (b : Byte) : (s.setDT b).draws = s.draws := rfl
@[simp] theorem State.setDT_events (b : Byte) : (s.setDT b).events = s.events := rfl

/-! ### setST -/

@[simp] theorem State.setST_v (b : Byte) : (s.setST b).v = s.v := rfl
@[simp] theorem State.setST_i (b : Byte) : (s.setST b).i = s.i := rfl
@[simp] theorem State.setST_pc (b : Byte) : (s.setST b).pc = s.pc := rfl
@[simp] theorem State.setST_stack (b : Byte) : (s.setST b).stack = s.stack := rfl
@[simp] theorem State.setST_sp (b : Byte) : (s.setST b).sp = s.sp := rfl
@[simp] theorem State.setST_mem (b : Byte) : (s.setST b).mem = s.mem := rfl
@[simp] theorem State.setST_disp (b : Byte) : (s.setST b).disp = s.disp := rfl
@[simp] theorem State.setST_dt (b : Byte) : (s.setST b).dt = s.dt := rfl
@[simp] theorem State.setST_st (b : Byte) : (s.setST b).st = b := rfl
@[simp] theorem State.setST_key (b : Byte) : (s.setST b).key = s.key := rfl
@[simp] theorem State.setST_fsm (b : Byte) : (s.setST b).fsm = s.fsm := rfl
@[simp] theorem State.setST_faultCause (b : Byte) : (s.setST b).faultCause = s.faultCause := rfl
@[simp] theorem State.setST_faultInfo (b : Byte) : (s.setST b).faultInfo = s.faultInfo := rfl
@[simp] theorem State.setST_drawFlag (b : Byte) : (s.setST b).drawFlag = s.drawFlag := rfl
@[simp] theorem State.setST_waitX (b : Byte) : (s.setST b).waitX = s.waitX := rfl
@[simp] theorem State.setST_fontTable (b : Byte) : (s.setST b).fontTable = s.fontTable := rfl
@[simp] theorem State.setST_draws (b : Byte) : (s.setST b).draws = s.draws := rfl
@[simp] theorem State.setST_events (b : Byte) : (s.setST b).events = s.events := rfl

/-! ### setKeyLatch -/

@[simp] theorem State.setKeyLatch_v (k : Nibble) (p : Bool) : (s.setKeyLatch k p).v = s.v := rfl
@[simp] theorem State.setKeyLatch_i (k : Nibble) (p : Bool) : (s.setKeyLatch k p).i = s.i := rfl
@[simp] theorem State.setKeyLatch_pc (k : Nibble) (p : Bool) : (s.setKeyLatch k p).pc = s.pc := rfl
@[simp] theorem State.setKeyLatch_stack (k : Nibble) (p : Bool) : (s.setKeyLatch k p).stack = s.stack := rfl
@[simp] theorem State.setKeyLatch_sp (k : Nibble) (p : Bool) : (s.setKeyLatch k p).sp = s.sp := rfl
@[simp] theorem State.setKeyLatch_mem (k : Nibble) (p : Bool) : (s.setKeyLatch k p).mem = s.mem := rfl
@[simp] theorem State.setKeyLatch_disp (k : Nibble) (p : Bool) : (s.setKeyLatch k p).disp = s.disp := rfl
@[simp] theorem State.setKeyLatch_dt (k : Nibble) (p : Bool) : (s.setKeyLatch k p).dt = s.dt := rfl
@[simp] theorem State.setKeyLatch_st (k : Nibble) (p : Bool) : (s.setKeyLatch k p).st = s.st := rfl
@[simp] theorem State.setKeyLatch_key (k : Nibble) (p : Bool) : (s.setKeyLatch k p).key = s.key.set k.toNat p := rfl
@[simp] theorem State.setKeyLatch_fsm (k : Nibble) (p : Bool) : (s.setKeyLatch k p).fsm = s.fsm := rfl
@[simp] theorem State.setKeyLatch_faultCause (k : Nibble) (p : Bool) : (s.setKeyLatch k p).faultCause = s.faultCause := rfl
@[simp] theorem State.setKeyLatch_faultInfo (k : Nibble) (p : Bool) : (s.setKeyLatch k p).faultInfo = s.faultInfo := rfl
@[simp] theorem State.setKeyLatch_drawFlag (k : Nibble) (p : Bool) : (s.setKeyLatch k p).drawFlag = s.drawFlag := rfl
@[simp] theorem State.setKeyLatch_waitX (k : Nibble) (p : Bool) : (s.setKeyLatch k p).waitX = s.waitX := rfl
@[simp] theorem State.setKeyLatch_fontTable (k : Nibble) (p : Bool) : (s.setKeyLatch k p).fontTable = s.fontTable := rfl
@[simp] theorem State.setKeyLatch_draws (k : Nibble) (p : Bool) : (s.setKeyLatch k p).draws = s.draws := rfl
@[simp] theorem State.setKeyLatch_events (k : Nibble) (p : Bool) : (s.setKeyLatch k p).events = s.events := rfl

/-! ### setFsm -/

@[simp] theorem State.setFsm_v (f : Fsm) : (s.setFsm f).v = s.v := rfl
@[simp] theorem State.setFsm_i (f : Fsm) : (s.setFsm f).i = s.i := rfl
@[simp] theorem State.setFsm_pc (f : Fsm) : (s.setFsm f).pc = s.pc := rfl
@[simp] theorem State.setFsm_stack (f : Fsm) : (s.setFsm f).stack = s.stack := rfl
@[simp] theorem State.setFsm_sp (f : Fsm) : (s.setFsm f).sp = s.sp := rfl
@[simp] theorem State.setFsm_mem (f : Fsm) : (s.setFsm f).mem = s.mem := rfl
@[simp] theorem State.setFsm_disp (f : Fsm) : (s.setFsm f).disp = s.disp := rfl
@[simp] theorem State.setFsm_dt (f : Fsm) : (s.setFsm f).dt = s.dt := rfl
@[simp] theorem State.setFsm_st (f : Fsm) : (s.setFsm f).st = s.st := rfl
@[simp] theorem State.setFsm_key (f : Fsm) : (s.setFsm f).key = s.key := rfl
@[simp] theorem State.setFsm_fsm (f : Fsm) : (s.setFsm f).fsm = f := rfl
@[simp] theorem State.setFsm_faultCause (f : Fsm) : (s.setFsm f).faultCause = s.faultCause := rfl
@[simp] theorem State.setFsm_faultInfo (f : Fsm) : (s.setFsm f).faultInfo = s.faultInfo := rfl
@[simp] theorem State.setFsm_drawFlag (f : Fsm) : (s.setFsm f).drawFlag = s.drawFlag := rfl
@[simp] theorem State.setFsm_waitX (f : Fsm) : (s.setFsm f).waitX = s.waitX := rfl
@[simp] theorem State.setFsm_fontTable (f : Fsm) : (s.setFsm f).fontTable = s.fontTable := rfl
@[simp] theorem State.setFsm_draws (f : Fsm) : (s.setFsm f).draws = s.draws := rfl
@[simp] theorem State.setFsm_events (f : Fsm) : (s.setFsm f).events = s.events := rfl

/-! ### setDrawFlag -/

@[simp] theorem State.setDrawFlag_v (b : Bool) : (s.setDrawFlag b).v = s.v := rfl
@[simp] theorem State.setDrawFlag_i (b : Bool) : (s.setDrawFlag b).i = s.i := rfl
@[simp] theorem State.setDrawFlag_pc (b : Bool) : (s.setDrawFlag b).pc = s.pc := rfl
@[simp] theorem State.setDrawFlag_stack (b : Bool) : (s.setDrawFlag b).stack = s.stack := rfl
@[simp] theorem State.setDrawFlag_sp (b : Bool) : (s.setDrawFlag b).sp = s.sp := rfl
@[simp] theorem State.setDrawFlag_mem (b : Bool) : (s.setDrawFlag b).mem = s.mem := rfl
@[simp] theorem State.setDrawFlag_disp (b : Bool) : (s.setDrawFlag b).disp = s.disp := rfl
@[simp] theorem State.setDrawFlag_dt (b : Bool) : (s.setDrawFlag b).dt = s.dt := rfl
@[simp] theorem State.setDrawFlag_st (b : Bool) : (s.setDrawFlag b).st = s.st := rfl
@[simp] theorem State.setDrawFlag_key (b : Bool) : (s.setDrawFlag b).key = s.key := rfl
@[simp] theorem State.setDrawFlag_fsm (b : Bool) : (s.setDrawFlag b).fsm = s.fsm := rfl
@[simp] theorem State.setDrawFlag_faultCause (b : Bool) : (s.setDrawFlag b).faultCause = s.faultCause := rfl
@[simp] theorem State.setDrawFlag_faultInfo (b : Bool) : (s.setDrawFlag b).faultInfo = s.faultInfo := rfl
@[simp] theorem State.setDrawFlag_drawFlag (b : Bool) : (s.setDrawFlag b).drawFlag = b := rfl
@[simp] theorem State.setDrawFlag_waitX (b : Bool) : (s.setDrawFlag b).waitX = s.waitX := rfl
@[simp] theorem State.setDrawFlag_fontTable (b : Bool) : (s.setDrawFlag b).fontTable = s.fontTable := rfl
@[simp] theorem State.setDrawFlag_draws (b : Bool) : (s.setDrawFlag b).draws = s.draws := rfl
@[simp] theorem State.setDrawFlag_events (b : Bool) : (s.setDrawFlag b).events = s.events := rfl

/-! ### setWaitX -/

@[simp] theorem State.setWaitX_v (x : Nibble) : (s.setWaitX x).v = s.v := rfl
@[simp] theorem State.setWaitX_i (x : Nibble) : (s.setWaitX x).i = s.i := rfl
@[simp] theorem State.setWaitX_pc (x : Nibble) : (s.setWaitX x).pc = s.pc := rfl
@[simp] theorem State.setWaitX_stack (x : Nibble) : (s.setWaitX x).stack = s.stack := rfl
@[simp] theorem State.setWaitX_sp (x : Nibble) : (s.setWaitX x).sp = s.sp := rfl
@[simp] theorem State.setWaitX_mem (x : Nibble) : (s.setWaitX x).mem = s.mem := rfl
@[simp] theorem State.setWaitX_disp (x : Nibble) : (s.setWaitX x).disp = s.disp := rfl
@[simp] theorem State.setWaitX_dt (x : Nibble) : (s.setWaitX x).dt = s.dt := rfl
@[simp] theorem State.setWaitX_st (x : Nibble) : (s.setWaitX x).st = s.st := rfl
@[simp] theorem State.setWaitX_key (x : Nibble) : (s.setWaitX x).key = s.key := rfl
@[simp] theorem State.setWaitX_fsm (x : Nibble) : (s.setWaitX x).fsm = s.fsm := rfl
@[simp] theorem State.setWaitX_faultCause (x : Nibble) : (s.setWaitX x).faultCause = s.faultCause := rfl
@[simp] theorem State.setWaitX_faultInfo (x : Nibble) : (s.setWaitX x).faultInfo = s.faultInfo := rfl
@[simp] theorem State.setWaitX_drawFlag (x : Nibble) : (s.setWaitX x).drawFlag = s.drawFlag := rfl
@[simp] theorem State.setWaitX_waitX (x : Nibble) : (s.setWaitX x).waitX = x := rfl
@[simp] theorem State.setWaitX_fontTable (x : Nibble) : (s.setWaitX x).fontTable = s.fontTable := rfl
@[simp] theorem State.setWaitX_draws (x : Nibble) : (s.setWaitX x).draws = s.draws := rfl
@[simp] theorem State.setWaitX_events (x : Nibble) : (s.setWaitX x).events = s.events := rfl

/-! ### nextDraw -/

@[simp] theorem State.nextDraw_v : (s.nextDraw).v = s.v := rfl
@[simp] theorem State.nextDraw_i : (s.nextDraw).i = s.i := rfl
@[simp] theorem State.nextDraw_pc : (s.nextDraw).pc = s.pc := rfl
@[simp] theorem State.nextDraw_stack : (s.nextDraw).stack = s.stack := rfl
@[simp] theorem State.nextDraw_sp : (s.nextDraw).sp = s.sp := rfl
@[simp] theorem State.nextDraw_mem : (s.nextDraw).mem = s.mem := rfl
@[simp] theorem State.nextDraw_disp : (s.nextDraw).disp = s.disp := rfl
@[simp] theorem State.nextDraw_dt : (s.nextDraw).dt = s.dt := rfl
@[simp] theorem State.nextDraw_st : (s.nextDraw).st = s.st := rfl
@[simp] theorem State.nextDraw_key : (s.nextDraw).key = s.key := rfl
@[simp] theorem State.nextDraw_fsm : (s.nextDraw).fsm = s.fsm := rfl
@[simp] theorem State.nextDraw_faultCause : (s.nextDraw).faultCause = s.faultCause := rfl
@[simp] theorem State.nextDraw_faultInfo : (s.nextDraw).faultInfo = s.faultInfo := rfl
@[simp] theorem State.nextDraw_drawFlag : (s.nextDraw).drawFlag = s.drawFlag := rfl
@[simp] theorem State.nextDraw_waitX : (s.nextDraw).waitX = s.waitX := rfl
@[simp] theorem State.nextDraw_fontTable : (s.nextDraw).fontTable = s.fontTable := rfl
@[simp] theorem State.nextDraw_draws : (s.nextDraw).draws = s.draws + 1 := rfl
@[simp] theorem State.nextDraw_events : (s.nextDraw).events = s.events := rfl

/-! ### setEvents -/

@[simp] theorem State.setEvents_v (es : List Event) : (s.setEvents es).v = s.v := rfl
@[simp] theorem State.setEvents_i (es : List Event) : (s.setEvents es).i = s.i := rfl
@[simp] theorem State.setEvents_pc (es : List Event) : (s.setEvents es).pc = s.pc := rfl
@[simp] theorem State.setEvents_stack (es : List Event) : (s.setEvents es).stack = s.stack := rfl
@[simp] theorem State.setEvents_sp (es : List Event) : (s.setEvents es).sp = s.sp := rfl
@[simp] theorem State.setEvents_mem (es : List Event) : (s.setEvents es).mem = s.mem := rfl
@[simp] theorem State.setEvents_disp (es : List Event) : (s.setEvents es).disp = s.disp := rfl
@[simp] theorem State.setEvents_dt (es : List Event) : (s.setEvents es).dt = s.dt := rfl
@[simp] theorem State.setEvents_st (es : List Event) : (s.setEvents es).st = s.st := rfl
@[simp] theorem State.setEvents_key (es : List Event) : (s.setEvents es).key = s.key := rfl
@[simp] theorem State.setEvents_fsm (es : List Event) : (s.setEvents es).fsm = s.fsm := rfl
@[simp] theorem State.setEvents_faultCause (es : List Event) : (s.setEvents es).faultCause = s.faultCause := rfl
@[simp] theorem State.setEvents_faultInfo (es : List Event) : (s.setEvents es).faultInfo = s.faultInfo := rfl
@[simp] theorem State.setEvents_drawFlag (es : List Event) : (s.setEvents es).drawFlag = s.drawFlag := rfl
@[simp] theorem State.setEvents_waitX (es : List Event) : (s.setEvents es).waitX = s.waitX := rfl
@[simp] theorem State.setEvents_fontTable (es : List Event) : (s.setEvents es).fontTable = s.fontTable := rfl
@[simp] theorem State.setEvents_draws (es : List Event) : (s.setEvents es).draws = s.draws := rfl
@[simp] theorem State.setEvents_events (es : List Event) : (s.setEvents es).events = es := rfl

/-! ### enterFault -/

@[simp] theorem State.enterFault_v (e : CycleFault) : (s.enterFault e).v = s.v := rfl
@[simp] theorem State.enterFault_i (e : CycleFault) : (s.enterFault e).i = s.i := rfl
@[simp] theorem State.enterFault_pc (e : CycleFault) : (s.enterFault e).pc = s.pc := rfl
@[simp] theorem State.enterFault_stack (e : CycleFault) : (s.enterFault e).stack = s.stack := rfl
@[simp] theorem State.enterFault_sp (e : CycleFault) : (s.enterFault e).sp = s.sp := rfl
@[simp] theorem State.enterFault_mem (e : CycleFault) : (s.enterFault e).mem = s.mem := rfl
@[simp] theorem State.enterFault_disp (e : CycleFault) : (s.enterFault e).disp = s.disp := rfl
@[simp] theorem State.enterFault_dt (e : CycleFault) : (s.enterFault e).dt = s.dt := rfl
@[simp] theorem State.enterFault_st (e : CycleFault) : (s.enterFault e).st = s.st := rfl
@[simp] theorem State.enterFault_key (e : CycleFault) : (s.enterFault e).key = s.key := rfl
@[simp] theorem State.enterFault_fsm (e : CycleFault) : (s.enterFault e).fsm = .halted := rfl
@[simp] theorem State.enterFault_faultCause (e : CycleFault) : (s.enterFault e).faultCause = e.cause := rfl
@[simp] theorem State.enterFault_faultInfo (e : CycleFault) : (s.enterFault e).faultInfo = e.info := rfl
@[simp] theorem State.enterFault_drawFlag (e : CycleFault) : (s.enterFault e).drawFlag = s.drawFlag := rfl
@[simp] theorem State.enterFault_waitX (e : CycleFault) : (s.enterFault e).waitX = s.waitX := rfl
@[simp] theorem State.enterFault_fontTable (e : CycleFault) : (s.enterFault e).fontTable = s.fontTable := rfl
@[simp] theorem State.enterFault_draws (e : CycleFault) : (s.enterFault e).draws = s.draws := rfl
@[simp] theorem State.enterFault_events (e : CycleFault) : (s.enterFault e).events = s.events := rfl

/-! ### beginCycle -/

@[simp] theorem State.beginCycle_v : (s.beginCycle).v = s.v := rfl
@[simp] theorem State.beginCycle_i : (s.beginCycle).i = s.i := rfl
@[simp] theorem State.beginCycle_pc : (s.beginCycle).pc = s.pc + 2 := rfl
@[simp] theorem State.beginCycle_stack : (s.beginCycle).stack = s.stack := rfl
@[simp] theorem State.beginCycle_sp : (s.beginCycle).sp = s.sp := rfl
@[simp] theorem State.beginCycle_mem : (s.beginCycle).mem = s.mem := rfl
@[simp] theorem State.beginCycle_disp : (s.beginCycle).disp = s.disp := rfl
@[simp] theorem State.beginCycle_dt : (s.beginCycle).dt = s.dt := rfl
@[simp] theorem State.beginCycle_st : (s.beginCycle).st = s.st := rfl
@[simp] theorem State.beginCycle_key : (s.beginCycle).key = s.key := rfl
@[simp] theorem State.beginCycle_fsm : (s.beginCycle).fsm = .running := rfl
@[simp] theorem State.beginCycle_faultCause : (s.beginCycle).faultCause = s.faultCause := rfl
@[simp] theorem State.beginCycle_faultInfo : (s.beginCycle).faultInfo = s.faultInfo := rfl
@[simp] theorem State.beginCycle_drawFlag : (s.beginCycle).drawFlag = s.drawFlag := rfl
@[simp] theorem State.beginCycle_waitX : (s.beginCycle).waitX = s.waitX := rfl
@[simp] theorem State.beginCycle_fontTable : (s.beginCycle).fontTable = s.fontTable := rfl
@[simp] theorem State.beginCycle_draws : (s.beginCycle).draws = s.draws := rfl
@[simp] theorem State.beginCycle_events : (s.beginCycle).events = s.events := rfl

/-! ### The accessors -/

@[simp] theorem State.getV_setV (x y : Nibble) (b : Byte) :
    (s.setV x b).getV y = if x = y then b else s.getV y := by
  simp only [State.getV, State.setV, Vector.getElem_set, BitVec.toNat_inj]

@[simp] theorem State.getKey_setKeyLatch (k j : Nibble) (p : Bool) :
    (s.setKeyLatch k p).getKey j = if k = j then p else s.getKey j := by
  simp only [State.getKey, State.setKeyLatch, Vector.getElem_set, BitVec.toNat_inj]

@[simp] theorem State.setV_getKey (x : Nibble) (b : Byte) (r : Nibble) : (s.setV x b).getKey r = s.getKey r := rfl
@[simp] theorem State.setV_effAddr (x : Nibble) (b : Byte) (r : Nat) : (s.setV x b).effAddr r = s.effAddr r := rfl
@[simp] theorem State.setV_byteAt (x : Nibble) (b : Byte) (r : Nat) : (s.setV x b).byteAt r = s.byteAt r := rfl
@[simp] theorem State.setI_getV (a : Word) (r : Nibble) : (s.setI a).getV r = s.getV r := rfl
@[simp] theorem State.setI_getKey (a : Word) (r : Nibble) : (s.setI a).getKey r = s.getKey r := rfl
@[simp] theorem State.setI_byteAt (a : Word) (r : Nat) : (s.setI a).byteAt r = s.byteAt r := rfl
@[simp] theorem State.setI_firstVs (a : Word) (r : Nibble) : (s.setI a).firstVs r = s.firstVs r := rfl
@[simp] theorem State.setPc_getV (a : Word) (r : Nibble) : (s.setPc a).getV r = s.getV r := rfl
@[simp] theorem State.setPc_getKey (a : Word) (r : Nibble) : (s.setPc a).getKey r = s.getKey r := rfl
@[simp] theorem State.setPc_effAddr (a : Word) (r : Nat) : (s.setPc a).effAddr r = s.effAddr r := rfl
@[simp] theorem State.setPc_byteAt (a : Word) (r : Nat) : (s.setPc a).byteAt r = s.byteAt r := rfl
@[simp] theorem State.setPc_firstVs (a : Word) (r : Nibble) : (s.setPc a).firstVs r = s.firstVs r := rfl
@[simp] theorem State.setMem_getV (m : Memory) (r : Nibble) : (s.setMem m).getV r = s.getV r := rfl
@[simp] theorem State.setMem_getKey (m : Memory) (r : Nibble) : (s.setMem m).getKey r = s.getKey r := rfl
@[simp] theorem State.setMem_effAddr (m : Memory) (r : Nat) : (s.setMem m).effAddr r = s.effAddr r := rfl
@[simp] theorem State.setMem_byteAt (m : Memory) (r : Nat) :
    (s.setMem m).byteAt r = Memory.read s.fontTable m r := rfl
@[simp] theorem State.setMem_firstVs (m : Memory) (r : Nibble) : (s.setMem m).firstVs r = s.firstVs r := rfl
@[simp] theorem State.setDisp_getV (d : Display) (r : Nibble) : (s.setDisp d).getV r = s.getV r := rfl
@[simp] theorem State.setDisp_getKey (d : Display) (r : Nibble) : (s.setDisp d).getKey r = s.getKey r := rfl
@[simp] theorem State.setDisp_effAddr (d : Display) (r : Nat) : (s.setDisp d).effAddr r = s.effAddr r := rfl
@[simp] theorem State.setDisp_byteAt (d : Display) (r : Nat) : (s.setDisp d).byteAt r = s.byteAt r := rfl
@[simp] theorem State.setDisp_firstVs (d : Display) (r : Nibble) : (s.setDisp d).firstVs r = s.firstVs r := rfl
@[simp] theorem State.setDT_getV (b : Byte) (r : Nibble) : (s.setDT b).getV r = s.getV r := rfl
@[simp] theorem State.setDT_getKey (b : Byte) (r : Nibble) : (s.setDT b).getKey r = s.getKey r := rfl
@[simp] theorem State.setDT_effAddr (b : Byte) (r : Nat) : (s.setDT b).effAddr r = s.effAddr r := rfl
@[simp] theorem State.setDT_byteAt (b : Byte) (r : Nat) : (s.setDT b).byteAt r = s.byteAt r := rfl
@[simp] theorem State.setDT_firstVs (b : Byte) (r : Nibble) : (s.setDT b).firstVs r = s.firstVs r := rfl
@[simp] theorem State.setST_getV (b : Byte) (r : Nibble) : (s.setST b).getV r = s.getV r := rfl
@[simp] theorem State.setST_getKey (b : Byte) (r : Nibble) : (s.setST b).getKey r = s.getKey r := rfl
@[simp] theorem State.setST_effAddr (b : Byte) (r : Nat) : (s.setST b).effAddr r = s.effAddr r := rfl
@[simp] theorem State.setST_byteAt (b : Byte) (r : Nat) : (s.setST b).byteAt r = s.byteAt r := rfl
@[simp] theorem State.setST_firstVs (b : Byte) (r : Nibble) : (s.setST b).firstVs r = s.firstVs r := rfl
@[simp] theorem State.setKeyLatch_getV (k : Nibble) (p : Bool) (r : Nibble) : (s.setKeyLatch k p).getV r = s.getV r := rfl
@[simp] theorem State.setKeyLatch_effAddr (k : Nibble) (p : Bool) (r : Nat) : (s.setKeyLatch k p).effAddr r = s.effAddr r := rfl
@[simp] theorem State.setKeyLatch_byteAt (k : Nibble) (p : Bool) (r : Nat) : (s.setKeyLatch k p).byteAt r = s.byteAt r := rfl
@[simp] theorem State.setKeyLatch_firstVs (k : Nibble) (p : Bool) (r : Nibble) : (s.setKeyLatch k p).firstVs r = s.firstVs r := rfl
@[simp] theorem State.setFsm_getV (f : Fsm) (r : Nibble) : (s.setFsm f).getV r = s.getV r := rfl
@[simp] theorem State.setFsm_getKey (f : Fsm) (r : Nibble) : (s.setFsm f).getKey r = s.getKey r := rfl
@[simp] theorem State.setFsm_effAddr (f : Fsm) (r : Nat) : (s.setFsm f).effAddr r = s.effAddr r := rfl
@[simp] theorem State.setFsm_byteAt (f : Fsm) (r : Nat) : (s.setFsm f).byteAt r = s.byteAt r := rfl
@[simp] theorem State.setFsm_firstVs (f : Fsm) (r : Nibble) : (s.setFsm f).firstVs r = s.firstVs r := rfl
@[simp] theorem State.setDrawFlag_getV (b : Bool) (r : Nibble) : (s.setDrawFlag b).getV r = s.getV r := rfl
@[simp] theorem State.setDrawFlag_getKey (b : Bool) (r : Nibble) : (s.setDrawFlag b).getKey r = s.getKey r := rfl
@[simp] theorem State.setDrawFlag_effAddr (b : Bool) (r : Nat) : (s.setDrawFlag b).effAddr r = s.effAddr r := rfl
@[simp] theorem State.setDrawFlag_byteAt (b : Bool) (r : Nat) : (s.setDrawFlag b).byteAt r = s.byteAt r := rfl
@[simp] theorem State.setDrawFlag_firstVs (b : Bool) (r : Nibble) : (s.setDrawFlag b).firstVs r = s.firstVs r := rfl
@[simp] theorem State.setWaitX_getV (x : Nibble) (r : Nibble) : (s.setWaitX x).getV r = s.getV r := rfl
@[simp] theorem State.setWaitX_getKey (x : Nibble) (r : Nibble) : (s.setWaitX x).getKey r = s.getKey r := rfl
@[simp] theorem State.setWaitX_effAddr (x : Nibble) (r : Nat) : (s.setWaitX x).effAddr r = s.effAddr r := rfl
@[simp] theorem State.setWaitX_byteAt (x : Nibble) (r : Nat) : (s.setWaitX x).byteAt r = s.byteAt r := rfl
@[simp] theorem State.setWaitX_firstVs (x : Nibble) (r : Nibble) : (s.setWaitX x).firstVs r = s.firstVs r := rfl
@[simp] theorem State.nextDraw_getV (r : Nibble) : (s.nextDraw).getV r = s.getV r := rfl
@[simp] theorem State.nextDraw_getKey (r : Nibble) : (s.nextDraw).getKey r = s.getKey r := rfl
@[simp] theorem State.nextDraw_effAddr (r : Nat) : (s.nextDraw).effAddr r = s.effAddr r := rfl
@[simp] theorem State.nextDraw_byteAt (r : Nat) : (s.nextDraw).byteAt r = s.byteAt r := rfl
@[simp] theorem State.nextDraw_firstVs (r : Nibble) : (s.nextDraw).firstVs r = s.firstVs r := rfl
@[simp] theorem State.setEvents_getV (es : List Event) (r : Nibble) : (s.setEvents es).getV r = s.getV r := rfl
@[simp] theorem State.setEvents_getKey (es : List Event) (r : Nibble) : (s.setEvents es).getKey r = s.getKey r := rfl
@[simp] theorem State.setEvents_effAddr (es : List Event) (r : Nat) : (s.setEvents es).effAddr r = s.effAddr r := rfl
@[simp] theorem State.setEvents_byteAt (es : List Event) (r : Nat) : (s.setEvents es).byteAt r = s.byteAt r := rfl
@[simp] theorem State.setEvents_firstVs (es : List Event) (r : Nibble) : (s.setEvents es).firstVs r = s.firstVs r := rfl
@[simp] theorem State.enterFault_getV (e : CycleFault) (r : Nibble) : (s.enterFault e).getV r = s.getV r := rfl
@[simp] theorem State.enterFault_getKey (e : CycleFault) (r : Nibble) : (s.enterFault e).getKey r = s.getKey r := rfl
@[simp] theorem State.enterFault_effAddr (e : CycleFault) (r : Nat) : (s.enterFault e).effAddr r = s.effAddr r := rfl
@[simp] theorem State.enterFault_byteAt (e : CycleFault) (r : Nat) : (s.enterFault e).byteAt r = s.byteAt r := rfl
@[simp] theorem State.enterFault_firstVs (e : CycleFault) (r : Nibble) : (s.enterFault e).firstVs r = s.firstVs r := rfl
@[simp] theorem State.beginCycle_getV (r : Nibble) : (s.beginCycle).getV r = s.getV r := rfl
@[simp] theorem State.beginCycle_getKey (r : Nibble) : (s.beginCycle).getKey r = s.getKey r := rfl
@[simp] theorem State.beginCycle_effAddr (r : Nat) : (s.beginCycle).effAddr r = s.effAddr r := rfl
@[simp] theorem State.beginCycle_byteAt (r : Nat) : (s.beginCycle).byteAt r = s.byteAt r := rfl
@[simp] theorem State.beginCycle_firstVs (r : Nibble) : (s.beginCycle).firstVs r = s.firstVs r := rfl

/-- Two registers files are equal when every register is. -/
theorem State.v_ext (t : State) (h : ∀ x, t.getV x = s.getV x) : t.v = s.v := by
  apply Vector.ext
  intro k hk
  have := h (BitVec.ofNat 4 k)
  have hk' : k % 16 = k := Nat.mod_eq_of_lt hk
  simpa [State.getV, BitVec.toNat_ofNat, hk'] using this

end Sys2Proof.Machine
end

