-- ==== Sys2Proof/Laws/Ops.lean ====
section
/-! SUPPORT. One lemma per shared operation that says once everything it can do. -/

namespace Sys2Proof.Machine

open Sys2Proof

/-! ## Memory primitives -/

/-- A read of the state's memory is `byteAt`: simp's normal form, so unfold `State.byteAt` by rw or show, not by simp. -/
@[simp] theorem State.read_mem (s : State) (a : Nat) : Memory.read s.fontTable s.mem a = s.byteAt a := rfl

/-- Memory reads alike in two states that agree on it and on `FONT_TABLE`. -/
theorem State.byteAt_congr {s t : State} (hf : t.fontTable = s.fontTable) (hm : t.mem = s.mem) (a : Nat) :
    t.byteAt a = s.byteAt a := by rw [State.byteAt, hf, hm, State.byteAt]

/-- Read after write, through the state. -/
theorem State.byteAt_write (s : State) (a c : Nat) (b : Byte) :
    (s.setMem (Memory.write s.fontTable s.mem a b)).byteAt c = if a = c then b else s.byteAt c :=
  Memory.read_write s.fontTable s.mem a c b

/-- What memory holds after a block is written, through the state. -/
theorem State.byteAt_writeBytes (s : State) (bs : List Byte) (a c : Nat) :
    (s.setMem (Memory.writeBytes s.fontTable s.mem a bs)).byteAt c =
      if a ≤ c ∧ c < a + bs.length then bs.getD (c - a) 0 else s.byteAt c :=
  Memory.read_writeBytes s.fontTable bs s.mem a c

/-- The reserved and font bytes are the reset ones where only RAM is listed (R32 b, R43). -/
theorem State.byteAt_low (s : State) (c : Nat) (h : Memory.onlyRam s.mem = true) (hc : c < 0x200) :
    s.byteAt c = resetByte s.fontTable c := Memory.read_of_onlyRam s.fontTable s.mem c h hc

/-- Every byte the reset state holds (R30). -/
theorem State.resetWith_byteAt (f : FontTable) (c : Nat) : (State.resetWith f).byteAt c = resetByte f c := rfl

/-- The font region holds the parameter (R29). -/
theorem resetByte_font (f : FontTable) (k : Fin 80) : resetByte f (0x050 + k.val) = f[k.val] := by
  have := k.isLt
  simp only [resetByte, show 0x050 ≤ 0x050 + k.val ∧ 0x050 + k.val ≤ 0x09F by omega, and_self, dite_true,
    Nat.add_sub_cancel_left]

/-- Outside the font region every reset byte is 0 (R30). -/
theorem resetByte_zero (f : FontTable) (a : Nat) (h : a < 0x050 ∨ 0x09F < a) : resetByte f a = 0 :=
  dif_neg (by omega)

/-- A read answers the byte, or IllegalAccess above 0xFFF (R46). -/
theorem State.memRead_eq (s : State) (a : Nat) :
    s.memRead a = if a ≤ 0xFFF then .ok (s.byteAt a) else .error (.illegalAccess a) := by
  simp only [State.memRead, readable_iff]

/-- A write stores the byte, or IllegalAccess outside RAM (R47). -/
theorem State.memWrite_eq (s : State) (a : Nat) (b : Byte) :
    s.memWrite a b =
      if 0x200 ≤ a ∧ a ≤ 0xFFF then .ok (s.setMem (Memory.write s.fontTable s.mem a b)) else .error (.illegalAccess a) := by
  simp only [State.memWrite, writable_iff]

/-- A block read inside the address space answers the bytes there. -/
theorem State.readBytes_ok (s : State) (a n : Nat) (h : n = 0 ∨ a + n ≤ 0x1000) :
    s.readBytes a n = .ok ((List.range n).map fun k => s.byteAt (a + k)) := by
  induction n generalizing a with
  | zero => simp [State.readBytes]
  | succ n ih =>
    have h1 : a ≤ 0xFFF := by omega
    simp [State.readBytes, State.memRead_eq, h1, ih (a + 1) (by omega), List.range_succ_eq_map, Nat.add_comm 1,
      Nat.add_assoc]

/-- A block read that passes 0xFFF answers IllegalAccess at the first address above it (R175). -/
theorem State.readBytes_error (s : State) (a n : Nat) (hn : n ≠ 0) (h : 0x1000 < a + n) :
    s.readBytes a n = .error (.illegalAccess (max a 0x1000)) := by
  induction n generalizing a with
  | zero => exact absurd rfl hn
  | succ n ih =>
    by_cases h1 : a ≤ 0xFFF
    · have hm : max (a + 1) 0x1000 = max a 0x1000 := by omega
      simp [State.readBytes, State.memRead_eq, h1, ih (a + 1) (by omega) (by omega), hm]
    · have hm : max a 0x1000 = a := by omega
      simp [State.readBytes, State.memRead_eq, h1, hm]

/-- A block store inside RAM writes every byte and nothing else. -/
theorem State.storeBytes_ok (bs : List Byte) (s : State) (a : Nat) (h1 : 0x200 ≤ a) (h2 : a + bs.length ≤ 0x1000) :
    s.storeBytes a bs = .ok (s.setMem (Memory.writeBytes s.fontTable s.mem a bs)) := by
  induction bs generalizing s a with
  | nil => rfl
  | cons b bs ih =>
    simp only [List.length_cons] at h2
    have h3 : 0x200 ≤ a ∧ a ≤ 0xFFF := by omega
    simp only [State.storeBytes, State.memWrite_eq, if_pos h3]
    rw [ih _ _ (by omega) (by omega)]
    rfl

/-- A block store that starts outside RAM answers IllegalAccess at its first address (R175). -/
theorem State.storeBytes_error_first (b : Byte) (bs : List Byte) (s : State) (a : Nat)
    (h : ¬ (0x200 ≤ a ∧ a ≤ 0xFFF)) : s.storeBytes a (b :: bs) = .error (.illegalAccess a) := by
  simp [State.storeBytes, State.memWrite_eq, h]

/-- A block store that starts in RAM and passes 0xFFF answers IllegalAccess at 0x1000 (R175). -/
theorem State.storeBytes_error_top (bs : List Byte) (s : State) (a : Nat) (h1 : 0x200 ≤ a) (h2 : a ≤ 0x1000)
    (h3 : 0x1000 < a + bs.length) : s.storeBytes a bs = .error (.illegalAccess 0x1000) := by
  induction bs generalizing s a with
  | nil => simp at h3; omega
  | cons b bs ih =>
    simp only [List.length_cons] at h3
    by_cases h4 : a ≤ 0xFFF
    · simp only [State.storeBytes, State.memWrite_eq, if_pos (And.intro h1 h4)]
      exact ih _ _ (by omega) (by omega) (by omega)
    · have : a = 0x1000 := by omega
      subst this
      exact State.storeBytes_error_first b bs s _ (by omega)

/-- Everything a block store can do: all bytes written to RAM, or IllegalAccess. -/
theorem State.storeBytes_cases (bs : List Byte) (s : State) (a : Nat) :
    (s.storeBytes a bs = .ok (s.setMem (Memory.writeBytes s.fontTable s.mem a bs)) ∧
      (bs = [] ∨ (0x200 ≤ a ∧ a + bs.length ≤ 0x1000))) ∨
    ∃ c, s.storeBytes a bs = .error (.illegalAccess c) := by
  cases bs with
  | nil => exact .inl ⟨rfl, .inl rfl⟩
  | cons b bs =>
    by_cases h : 0x200 ≤ a ∧ a ≤ 0xFFF
    · by_cases h2 : a + (b :: bs).length ≤ 0x1000
      · exact .inl ⟨State.storeBytes_ok _ s a h.1 h2, .inr ⟨h.1, h2⟩⟩
      · exact .inr ⟨_, State.storeBytes_error_top _ s a h.1 (by omega) (by omega)⟩
    · exact .inr ⟨_, State.storeBytes_error_first b bs s a h⟩

/-- Everything a block read can do: all the bytes, or IllegalAccess. -/
theorem State.readBytes_cases (s : State) (a n : Nat) :
    s.readBytes a n = .ok ((List.range n).map fun k => s.byteAt (a + k)) ∨
    s.readBytes a n = .error (.illegalAccess (max a 0x1000)) := by
  by_cases h : n = 0 ∨ a + n ≤ 0x1000
  · exact .inl (State.readBytes_ok s a n h)
  · exact .inr (State.readBytes_error s a n (by omega) (by omega))

/-! ## The register file in blocks -/

/-- What register `r` holds after `bs` is written to `V[k]` upward. -/
theorem State.setVs_getV (bs : List Byte) (s : State) (k : Nat) (r : Nibble) (h : k + bs.length ≤ 16) :
    (s.setVs k bs).getV r =
      if k ≤ r.toNat ∧ r.toNat < k + bs.length then bs.getD (r.toNat - k) 0 else s.getV r := by
  induction bs generalizing s k with
  | nil => simp [State.setVs]
  | cons b bs ih =>
    simp only [List.length_cons] at h
    rw [State.setVs, ih _ _ (by omega), State.getV_setV]
    have hk : (BitVec.ofNat 4 k = r) ↔ k = r.toNat := by
      constructor
      · rintro rfl
        simp [BitVec.toNat_ofNat]; omega
      · rintro rfl
        simp
    by_cases h1 : k + 1 ≤ r.toNat ∧ r.toNat < k + 1 + bs.length
    · have h3 : k ≤ r.toNat ∧ r.toNat < k + (b :: bs).length := by simp; omega
      obtain ⟨j, hj⟩ : ∃ j, r.toNat = k + 1 + j := ⟨r.toNat - (k + 1), by omega⟩
      have e1 : r.toNat - (k + 1) = j := by omega
      have e2 : r.toNat - k = j + 1 := by omega
      rw [if_pos h1, if_pos h3, e1, e2, List.getD_cons_succ]
    · rw [if_neg h1]
      by_cases h2 : k = r.toNat
      · have h3 : k ≤ r.toNat ∧ r.toNat < k + (b :: bs).length := by simp; omega
        rw [if_pos (hk.2 h2), if_pos h3]
        simp [h2]
      · have h3 : ¬ (k ≤ r.toNat ∧ r.toNat < k + (b :: bs).length) := by simp; omega
        rw [if_neg (mt hk.1 h2), if_neg h3]

/-- A block of register writes changes the register file alone. -/
theorem State.setVs_eq (bs : List Byte) (s : State) (k : Nat) :
    s.setVs k bs = { s with v := (s.setVs k bs).v } := by
  induction bs generalizing s k with
  | nil => rfl
  | cons b bs ih => rw [State.setVs, ih]; rfl

@[simp] theorem State.setVs_byteAt (bs : List Byte) (s : State) (k a : Nat) : (s.setVs k bs).byteAt a = s.byteAt a := by
  rw [State.setVs_eq]; rfl

theorem State.firstVs_length (s : State) (x : Nibble) : (s.firstVs x).length = x.toNat + 1 := by
  have := x.isLt
  simp [State.firstVs]; omega

/-- Element `k` of `V[0..x]` is `V[k]`. -/
theorem State.firstVs_getD (s : State) (x : Nibble) (k : Nat) (h : k ≤ x.toNat) :
    (s.firstVs x).getD k 0 = s.getV (BitVec.ofNat 4 k) := by
  have hx := x.isLt
  have hk : k % 16 = k := Nat.mod_eq_of_lt (by omega)
  have h1 : k < x.toNat + 1 := by omega
  have h2 : k < 16 := by omega
  simp [State.firstVs, State.getV, List.getD, h1, h2, BitVec.toNat_ofNat, hk]

/-! ## The stack -/

/-- Push succeeds below depth 16 (R100). -/
theorem State.push_ok (s : State) (a : Word) (h : s.sp.val < 16) :
    ∃ t, s.push a = .ok t ∧ t.sp.val = s.sp.val + 1 ∧ t.stack = s.stack.set s.sp.val a h ∧
      t = { s with stack := t.stack, sp := t.sp } := by
  simp [State.push, h]

/-- Push fails at depth 16 (R100). -/
theorem State.push_error (s : State) (a : Word) (h : s.sp.val = 16) : s.push a = .error .stackOverflow := by
  simp [State.push, h]

/-- Pop succeeds above depth 0 (R101). -/
theorem State.pop_ok (s : State) (h : s.sp.val ≠ 0) :
    ∃ a t, s.pop = .ok (a, t) ∧ t.sp.val + 1 = s.sp.val ∧
      (∀ hk : t.sp.val < 16, a = s.stack[t.sp.val]) ∧ t = { s with sp := t.sp } := by
  simp [State.pop, h]
  omega

/-- Pop fails at depth 0 (R101). -/
theorem State.pop_error (s : State) (h : s.sp.val = 0) : s.pop = .error .stackUnderflow := by
  simp [State.pop, h]

/-! ## Skips, the flag, one cycle -/

/-- A skip changes `pc` alone. -/
theorem State.skipIf_eq (s : State) (c : Bool) :
    s.skipIf c = s.setPc (if c then s.pc + 2 else s.pc) := by
  cases c <;> rfl

/-- What a register holds after a flag-defining write: the flag in `V[15]`, whatever `x` is (R121). -/
@[simp] theorem State.setVFlag_getV (s : State) (x r : Nibble) (b : Byte) (c : Bool) :
    (s.setVFlag x b c).getV r = if r = 15 then flagByte c else if r = x then b else s.getV r := by
  simp only [State.setVFlag, State.getV_setV, eq_comm]

/-- A flag-defining write changes the register file alone. -/
theorem State.setVFlag_eq (s : State) (x : Nibble) (b : Byte) (c : Bool) :
    s.setVFlag x b c = { s with v := (s.setVFlag x b c).v } := rfl

@[simp] theorem State.setVFlag_byteAt (s : State) (x : Nibble) (b : Byte) (c : Bool) (a : Nat) :
    (s.setVFlag x b c).byteAt a = s.byteAt a := rfl

/-- A cycle whose Execute step succeeds answers its state (R80). -/
theorem runCycle_ok (s t : State) (f : State → Except CycleFault State) (h : f s.beginCycle = .ok t) :
    runCycle s f = .next t := by
  simp [runCycle, h]

/-- A cycle whose Execute step raises takes the fault from the state before the cycle (R88). -/
theorem runCycle_error (s : State) (e : CycleFault) (f : State → Except CycleFault State)
    (h : f s.beginCycle = .error e) : runCycle s f = .next (s.enterFault e) := by
  simp [runCycle, h]

/-- Everything a cycle can do: it answers a next state, which is that of its Execute step or the fault's. -/
theorem runCycle_cases (s : State) (f : State → Except CycleFault State) :
    (∃ t, f s.beginCycle = .ok t ∧ runCycle s f = .next t) ∨
    ∃ e, f s.beginCycle = .error e ∧ runCycle s f = .next (s.enterFault e) := by
  cases h : f s.beginCycle with
  | ok t => exact .inl ⟨t, rfl, runCycle_ok s t f h⟩
  | error e => exact .inr ⟨e, rfl, runCycle_error s e f h⟩

/-- Fetch answers the two bytes, big-endian, below 0xFFF (R81). -/
theorem State.fetch_ok (s : State) (h : s.pc.toNat ≤ 0xFFE) :
    s.fetch = .ok (opcodeOfBytes (s.byteAt s.pc.toNat) (s.byteAt (s.pc.toNat + 1))) := by
  have h1 : s.pc.toNat ≤ 0xFFF := by omega
  have h2 : s.pc.toNat + 1 ≤ 0xFFF := by omega
  simp [State.fetch, State.memRead_eq, h1, h2]

/-- Fetch faults from 0xFFF upward, at the first byte that does not exist (R82). -/
theorem State.fetch_error (s : State) (h : 0xFFF ≤ s.pc.toNat) :
    s.fetch = .error (.illegalAccess (max s.pc.toNat 0x1000)) := by
  by_cases h1 : s.pc.toNat ≤ 0xFFF
  · have h2 : s.pc.toNat = 0xFFF := by omega
    simp [State.fetch, State.memRead_eq, h2]
  · have hm : max s.pc.toNat 0x1000 = s.pc.toNat := by omega
    simp [State.fetch, State.memRead_eq, h1, hm]

end Sys2Proof.Machine
end

