-- ==== Sys2Proof/Laws/Display.lean ====
section
/-! SUPPORT. The laws of the display primitives. -/

namespace Sys2Proof.Machine

/-- Read after write on the torus (R150, R151): coordinates are the same pixel when they agree modulo 64 and 32. -/
theorem dispGet_dispSet (d : Display) (x y px py : Nat) (p : Bool) :
    dispGet (dispSet d x y p) px py =
      if px % 64 = x % 64 ∧ py % 32 = y % 32 then p else dispGet d px py := by
  have hy : py % 32 < 32 := Nat.mod_lt _ (by decide)
  simp only [dispGet, dispSet, Vector.getElem_set]
  by_cases h1 : y % 32 = py % 32
  · simp only [h1, if_true, Vector.getElem_set]
    by_cases h2 : x % 64 = px % 64 <;> simp [h2, eq_comm]
  · simp [h1, eq_comm]

@[simp] theorem dispGet_dispClear (px py : Nat) : dispGet dispClear px py = false := by
  simp [dispGet, dispClear]

/-- Two displays are equal when every pixel is. -/
theorem disp_ext (d e : Display) (h : ∀ px py, px < 64 → py < 32 → dispGet d px py = dispGet e px py) : d = e := by
  apply Vector.ext
  intro y hy
  apply Vector.ext
  intro x hx
  simpa [dispGet, Nat.mod_eq_of_lt hx, Nat.mod_eq_of_lt hy] using h x y hx hy

/-- What a toggled pixel does to every pixel (R153). -/
theorem togglePixel_get (x y px py : Nat) (acc : Display × Bool) :
    dispGet (togglePixel x y acc).1 px py =
      (dispGet acc.1 px py ^^ decide (px % 64 = x % 64 ∧ py % 32 = y % 32)) := by
  rw [togglePixel, dispGet_dispSet]
  by_cases h : px % 64 = x % 64 ∧ py % 32 = y % 32
  · simp [h, dispGet]
  · simp [h]

/-- The collision is recorded when the toggled pixel was on (R153). -/
theorem togglePixel_hit (x y : Nat) (acc : Display × Bool) :
    (togglePixel x y acc).2 = (acc.2 || dispGet acc.1 x y) := rfl

/-- The columns of a sprite row, one by one. -/
theorem drawRow_eq (x y : Nat) (b : Byte) (acc : Display × Bool) :
    drawRow x y b acc = [0, 1, 2, 3, 4, 5, 6, 7].foldl (drawColumn x y b) acc := rfl

/-! ## The blit in closed form (R153, R154) -/

/-- `acc` is what toggling the pixels of `M` once each leaves of the display `d0`: every pixel of `M` inverted, and a
collision exactly where one of them was on. -/
def Blit (d0 : Display) (M : Nat → Nat → Bool) (acc : Display × Bool) : Prop :=
  (∀ px < 64, ∀ py < 32, dispGet acc.1 px py = (dispGet d0 px py ^^ M px py)) ∧
  (acc.2 = true ↔ ∃ px < 64, ∃ py < 32, dispGet d0 px py = true ∧ M px py = true)

/-- Coordinates wrap (R150). -/
theorem dispGet_mod (d : Display) (x y : Nat) : dispGet d (x % 64) (y % 32) = dispGet d x y := by
  simp [dispGet]

/-- One more pixel toggled. -/
theorem blit_toggle {d0 M acc} (h : Blit d0 M acc) (x y : Nat) (hM : M (x % 64) (y % 32) = false) :
    Blit d0 (fun px py => M px py || (px == x % 64 && py == y % 32)) (togglePixel x y acc) := by
  refine ⟨fun px hx py hy => ?_, ?_⟩
  · rw [togglePixel_get, h.1 px hx py hy, Nat.mod_eq_of_lt hx, Nat.mod_eq_of_lt hy]
    by_cases e : px = x % 64 ∧ py = y % 32
    · obtain ⟨rfl, rfl⟩ := e; simp [hM]
    · have : (px == x % 64 && py == y % 32) = false := by simpa using e
      simp [e, this]
  · rw [togglePixel_hit, Bool.or_eq_true, h.2, ← dispGet_mod,
      h.1 _ (Nat.mod_lt x (by decide)) _ (Nat.mod_lt y (by decide)), hM]
    constructor
    · rintro (⟨px, hx, py, hy, h1, h2⟩ | h1)
      · exact ⟨px, hx, py, hy, h1, by simp [h2]⟩
      · exact ⟨_, Nat.mod_lt x (by decide), _, Nat.mod_lt y (by decide), by simpa using h1, by simp⟩
    · rintro ⟨px, hx, py, hy, h1, h2⟩
      by_cases e : px = x % 64 ∧ py = y % 32
      · obtain ⟨rfl, rfl⟩ := e; right; simpa using h1
      · left; exact ⟨px, hx, py, hy, h1, by
          have : (px == x % 64 && py == y % 32) = false := by simpa using e
          simpa [this] using h2⟩

/-- Only the pixels of the display matter. -/
theorem blit_congr {d0 M N acc} (h : Blit d0 M acc) (e : ∀ px < 64, ∀ py < 32, M px py = N px py) :
    Blit d0 N acc := by
  refine ⟨fun px hx py hy => by rw [h.1 px hx py hy, e px hx py hy], ?_⟩
  rw [h.2]; constructor <;> rintro ⟨px, hx, py, hy, h1, h2⟩ <;> exact ⟨px, hx, py, hy, h1, by simp_all⟩

/-- The pixels of the first `k` columns of the sprite row `b` at `(x, y)`. -/
def rowMask (x y : Nat) (b : Byte) (k px py : Nat) : Bool :=
  decide ((px + 64 - x % 64) % 64 < k) && b.getLsbD (7 - (px + 64 - x % 64) % 64) && py == y % 32

/-- The first `k` columns of a sprite row drawn. -/
theorem blit_cols {d0 M acc} (h : Blit d0 M acc) (x y : Nat) (b : Byte) (hM : ∀ px, M px (y % 32) = false)
    (k : Nat) (hk : k ≤ 8) :
    Blit d0 (fun px py => M px py || rowMask x y b k px py) ((List.range k).foldl (drawColumn x y b) acc) := by
  induction k with
  | zero => exact blit_congr h (by simp [rowMask])
  | succ k ih =>
    rw [List.range_succ, List.foldl_append]
    simp only [List.foldl_cons, List.foldl_nil, drawColumn]
    have hx64 : x % 64 < 64 := Nat.mod_lt _ (by decide)
    split
    · rename_i hb
      refine blit_congr (blit_toggle (ih (by omega)) (x + k) y ?_) ?_
      · have : ((x + k) % 64 + 64 - x % 64) % 64 = k := by omega
        simp [hM, rowMask, this]
      · intro px hx py hy
        have : px = (x + k) % 64 ↔ (px + 64 - x % 64) % 64 = k := by omega
        by_cases e : (px + 64 - x % 64) % 64 = k
        · have e2 := this.2 e
          simp [rowMask, e, hb, ← e2]
        · have e2 := mt this.1 e
          have : ((px + 64 - x % 64) % 64 < k + 1) = ((px + 64 - x % 64) % 64 < k) := by apply propext; omega
          simp [rowMask, e2, this]
    · rename_i hb
      refine blit_congr (ih (by omega)) ?_
      intro px hx py hy
      by_cases e : (px + 64 - x % 64) % 64 = k
      · simp [rowMask, e, hb]
      · have : ((px + 64 - x % 64) % 64 < k + 1) = ((px + 64 - x % 64) % 64 < k) := by apply propext; omega
        simp [rowMask, this]

/-- The pixels of the sprite rows from display row `y` downward. -/
def rowsMask (x : Nat) : Nat → List Byte → Nat → Nat → Bool
  | _, [], _, _ => false
  | y, b :: bs, px, py => rowMask x y b 8 px py || rowsMask x (y+1) bs px py

/-- All rows of a sprite drawn. -/
theorem blit_rows {d0 M acc} (x y : Nat) (bs : List Byte) (h : Blit d0 M acc)
   (hM : ∀ j < bs.length, ∀ px, M px ((y + j) % 32) = false) (hl : bs.length ≤ 32) :
    Blit d0 (fun px py => M px py || rowsMask x y bs px py) (drawRows x y bs acc) := by
  induction bs generalizing y M acc with
  | nil => exact blit_congr h (by simp [rowsMask])
  | cons b bs ih =>
    simp only [List.length_cons] at hl hM
    rw [drawRows]
    have h1 := blit_cols h x y b (by simpa using hM 0 (by omega)) 8 (by decide)
    refine blit_congr (ih (y + 1) h1 ?_ (by omega)) (by simp [rowsMask, Bool.or_assoc])
    intro j hj px
    have := hM (j+1) (by omega) px
    rw [show y + 1 + j = y + (j+1) by omega, this]
    have : (y + (j + 1)) % 32 ≠ y % 32 := by omega
    simp [rowMask, this]

/-- The pixels of a sprite of at most 32 rows, in closed form. -/
theorem rowsMask_eq (x y : Nat) (bs : List Byte) (hl : bs.length ≤ 32) (px py : Nat) (hy : py < 32) :
    rowsMask x y bs px py = spriteBit bs x y px py := by
  induction bs generalizing y with
  | nil => simp [rowsMask, spriteBit]
  | cons b bs ih =>
    simp only [List.length_cons] at hl
    rw [rowsMask, ih (y+1) (by omega)]
    have hy32 : y % 32 < 32 := Nat.mod_lt _ (by decide)
    by_cases e : py = y % 32
    · have e1 : (py + 32 - y % 32) % 32 = 0 := by omega
      have e2 : (py + 32 - (y+1) % 32) % 32 = 31 := by omega
      simp [spriteBit, rowMask, e, List.getD]
      have e3 : (y % 32 + 32 - (y+1) % 32) % 32 = 31 := by omega
      rw [List.getElem?_eq_none (by omega)]
      simp
    · obtain ⟨j, hj⟩ : ∃ j, (py + 32 - y % 32) % 32 = j + 1 := ⟨(py + 32 - y % 32) % 32 - 1, by omega⟩
      have e2 : (py + 32 - (y+1) % 32) % 32 = j := by omega
      simp [spriteBit, rowMask, hj, e2, e, List.getD]

/-- Everything the blit does: it inverts the pixels of the sprite's closed form, and records a collision exactly where
one of them was on (R153). -/
theorem drawRows_blit (d : Display) (x y : Nat) (bs : List Byte) (hl : bs.length ≤ 32) :
    Blit d (spriteBit bs x y) (drawRows x y bs (d, false)) := by
  have h0 : Blit d (fun _ _ => false) (d, false) := ⟨by simp, by simp⟩
  exact blit_congr (blit_rows x y bs h0 (by simp) hl) (fun px _ py hy => by simp [rowsMask_eq x y bs hl px py hy])

end Sys2Proof.Machine
end

