-- ==== Sys2Proof/Laws/Encoding.lean ====
section
/-! SUPPORT. The fields of an encoded word are the fields it was made of, and a word is made of its fields. -/

namespace Sys2Proof

@[simp] theorem opMajor_encNNN (m : Nibble) (nnn : Addr12) : opMajor (encNNN m nnn) = m := by
  ext k hk
  simp only [opMajor, encNNN, BitVec.getElem_extractLsb', BitVec.getLsbD_append]
  simp [show ¬ 12 + k < 12 by omega, hk]

@[simp] theorem opNNN_encNNN (m : Nibble) (nnn : Addr12) : opNNN (encNNN m nnn) = nnn := by
  ext k hk
  simp only [opNNN, encNNN, BitVec.getElem_extractLsb', BitVec.getLsbD_append]
  simp [hk]

@[simp] theorem opMajor_encXKK (m x : Nibble) (kk : Byte) : opMajor (encXKK m x kk) = m := by
  ext k hk
  simp only [opMajor, encXKK, BitVec.getElem_extractLsb', BitVec.getLsbD_append]
  simp [show ¬ 12 + k < 8 by omega, show ¬ 12 + k - 8 < 4 by omega, show 12 + k - 8 - 4 = k by omega, hk]

@[simp] theorem opX_encXKK (m x : Nibble) (kk : Byte) : opX (encXKK m x kk) = x := by
  ext k hk
  simp only [opX, encXKK, BitVec.getElem_extractLsb', BitVec.getLsbD_append]
  simp [show ¬ 8 + k < 8 by omega, show 8 + k - 8 = k by omega, hk]

@[simp] theorem opKK_encXKK (m x : Nibble) (kk : Byte) : opKK (encXKK m x kk) = kk := by
  ext k hk
  simp only [opKK, encXKK, BitVec.getElem_extractLsb', BitVec.getLsbD_append]
  simp [hk]

@[simp] theorem opMajor_encXYN (m x y n : Nibble) : opMajor (encXYN m x y n) = m := by
  ext k hk
  simp only [opMajor, encXYN, BitVec.getElem_extractLsb', BitVec.getLsbD_append]
  simp [show ¬ 12 + k < 4 by omega, show ¬ 12 + k - 4 < 4 by omega, show ¬ 12 + k - 4 - 4 < 4 by omega,
    show 12 + k - 4 - 4 - 4 = k by omega, hk]

@[simp] theorem opX_encXYN (m x y n : Nibble) : opX (encXYN m x y n) = x := by
  ext k hk
  simp only [opX, encXYN, BitVec.getElem_extractLsb', BitVec.getLsbD_append]
  simp [show ¬ 8 + k < 4 by omega, show ¬ 8 + k - 4 < 4 by omega, show 8 + k - 4 - 4 = k by omega, hk]

@[simp] theorem opY_encXYN (m x y n : Nibble) : opY (encXYN m x y n) = y := by
  ext k hk
  simp only [opY, encXYN, BitVec.getElem_extractLsb', BitVec.getLsbD_append]
  simp [show ¬ 4 + k < 4 by omega, show 4 + k - 4 = k by omega, hk]

@[simp] theorem opN_encXYN (m x y n : Nibble) : opN (encXYN m x y n) = n := by
  ext k hk
  simp only [opN, encXYN, BitVec.getElem_extractLsb', BitVec.getLsbD_append]
  simp [hk]

/-- A word is its major opcode and `nnn` (R61). -/
theorem encNNN_fields (op : Word) : encNNN (opMajor op) (opNNN op) = op := by
  ext k hk
  simp only [opMajor, opNNN, encNNN, BitVec.getElem_eq_testBit_toNat]
  simp only [BitVec.testBit_toNat, BitVec.getLsbD_append, BitVec.getLsbD_extractLsb']
  by_cases h : k < 12
  · simp [h]
  · simp [h, show k - 12 < 4 by omega, show 12 + (k - 12) = k by omega]

/-- A word is its major opcode, `x` and `kk` (R61). -/
theorem encXKK_fields (op : Word) : encXKK (opMajor op) (opX op) (opKK op) = op := by
  ext k hk
  simp only [opMajor, opX, opKK, encXKK, BitVec.getElem_eq_testBit_toNat]
  simp only [BitVec.testBit_toNat, BitVec.getLsbD_append, BitVec.getLsbD_extractLsb']
  by_cases h : k < 8
  · simp [h]
  · by_cases h2 : k - 8 < 4
    · simp [h, h2, show 8 + (k - 8) = k by omega]
    · simp [h, h2, show k - 8 - 4 < 4 by omega, show 12 + (k - 8 - 4) = k by omega]

/-- A word is its four nibbles (R6, R61). -/
theorem encXYN_fields (op : Word) : encXYN (opMajor op) (opX op) (opY op) (opN op) = op := by
  ext k hk
  simp only [opMajor, opX, opY, opN, encXYN, BitVec.getElem_eq_testBit_toNat]
  simp only [BitVec.testBit_toNat, BitVec.getLsbD_append, BitVec.getLsbD_extractLsb']
  by_cases h : k < 4
  · simp [h]
  · by_cases h2 : k - 4 < 4
    · simp [h, h2, show 4 + (k - 4) = k by omega]
    · by_cases h3 : k - 4 - 4 < 4
      · simp [h, h2, h3, show 8 + (k - 4 - 4) = k by omega]
      · simp [h, h2, h3, show k - 4 - 4 - 4 < 4 by omega, show 12 + (k - 4 - 4 - 4) = k by omega]

/-- A word is its two bytes, high byte first (R50). -/
theorem opcodeOfBytes_fields (op : Word) : opcodeOfBytes (opHi op) (opLo op) = op := by
  ext k hk
  simp only [opHi, opLo, opcodeOfBytes, BitVec.getElem_eq_testBit_toNat]
  simp only [BitVec.testBit_toNat, BitVec.getLsbD_append, BitVec.getLsbD_extractLsb']
  by_cases h : k < 8
  · simp [h]
  · simp [h, show k - 8 < 8 by omega, show 8 + (k - 8) = k by omega]

end Sys2Proof
end

