-- ==== Sys2Proof/Laws/Exec.lean ====
section
/-! SUPPORT. The inversion of one cycle: everything `exec` can do, instruction by instruction, said once; and what
`cycle` and `cpuTick` can do. -/

namespace Sys2Proof.Machine

open Sys2Proof

/-- What a completed cycle of `i` from `s` leaves. -/
def Completes (i : Instr) (s t : State) : Prop :=
  match i with
  | .cls => t = (s.beginCycle.setDisp dispClear).setDrawFlag true
  | .ret => ∃ k : Fin 17, k.val + 1 = s.sp.val ∧ ∃ a, (∀ hk : k.val < 16, a = s.stack[k.val]) ∧
      t = { s.beginCycle with sp := k, pc := a }
  | .sys _ => False
  | .jp nnn => t = s.beginCycle.setPc (addrWord nnn)
  | .call nnn => ∃ h : s.sp.val < 16, t = { s.beginCycle with
      stack := s.stack.set s.sp.val (s.pc + 2) h, sp := ⟨s.sp.val + 1, by omega⟩, pc := addrWord nnn }
  | .seImm x kk => t = s.beginCycle.setPc (if s.getV x == kk then s.pc + 2 + 2 else s.pc + 2)
  | .sneImm x kk => t = s.beginCycle.setPc (if s.getV x != kk then s.pc + 2 + 2 else s.pc + 2)
  | .seReg x y => t = s.beginCycle.setPc (if s.getV x == s.getV y then s.pc + 2 + 2 else s.pc + 2)
  | .sneReg x y => t = s.beginCycle.setPc (if s.getV x != s.getV y then s.pc + 2 + 2 else s.pc + 2)
  | .skp x => t = s.beginCycle.setPc (if s.getKey (keyIndex (s.getV x)) then s.pc + 2 + 2 else s.pc + 2)
  | .sknp x => t = s.beginCycle.setPc (if !s.getKey (keyIndex (s.getV x)) then s.pc + 2 + 2 else s.pc + 2)
  | .jpV0 nnn => t = s.beginCycle.setPc (s.jumpTarget nnn)
  | .ldImm x kk => t = s.beginCycle.setV x kk
  | .addImm x kk => t = s.beginCycle.setV x (s.getV x + kk)
  | .ldReg x y => t = s.beginCycle.setV x (s.getV y)
  | .orReg x y => t = s.beginCycle.setV x (s.getV x ||| s.getV y)
  | .andReg x y => t = s.beginCycle.setV x (s.getV x &&& s.getV y)
  | .xorReg x y => t = s.beginCycle.setV x (s.getV x ^^^ s.getV y)
  | .addReg x y => t = s.beginCycle.setVFlag x (s.getV x + s.getV y) (carryOf (s.getV x) (s.getV y))
  | .sub x y => t = s.beginCycle.setVFlag x (s.getV x - s.getV y) (noBorrow (s.getV x) (s.getV y))
  | .subn x y => t = s.beginCycle.setVFlag x (s.getV y - s.getV x) (noBorrow (s.getV y) (s.getV x))
  | .shr x _ => t = s.beginCycle.setVFlag x (s.getV x >>> 1) (shiftOutLow (s.getV x))
  | .shl x _ => t = s.beginCycle.setVFlag x (s.getV x <<< 1) (shiftOutHigh (s.getV x))
  | .rnd x kk => t = (s.beginCycle.setV x (Config.rnd s.draws &&& kk)).nextDraw
  | .drw x y n => (n.toNat = 0 ∨ s.effAddr 0 + n.toNat ≤ 0x1000) ∧
      t = ((s.beginCycle.setDisp (drawn s x y n).1).setV 15 (flagByte (drawn s x y n).2)).setDrawFlag true
  | .ldVxDT x => t = s.beginCycle.setV x s.dt
  | .ldVxK x => t = (s.beginCycle.setWaitX x).setFsm .awaitingKey
  | .ldDTVx x => t = s.beginCycle.setDT (s.getV x)
  | .ldSTVx x => t = s.beginCycle.setST (s.getV x)
  | .ldI nnn => t = s.beginCycle.setI (addrWord nnn)
  | .addI x => t = s.beginCycle.setI (indexPlus s.i (s.getV x))
  | .ldF x => t = s.beginCycle.setI (fontAddr (s.getV x))
  | .ldB x => 0x200 ≤ s.effAddr 0 ∧ s.effAddr 0 + 3 ≤ 0x1000 ∧
      t = s.beginCycle.setMem (Memory.writeBytes s.fontTable s.mem (s.effAddr 0) (bcdDigits (s.getV x)))
  | .ldIVx x => 0x200 ≤ s.effAddr 0 ∧ s.effAddr 0 + (x.toNat + 1) ≤ 0x1000 ∧
      t = s.beginCycle.setMem (Memory.writeBytes s.fontTable s.mem (s.effAddr 0) (s.firstVs x))
  | .ldVxI x => s.effAddr 0 + (x.toNat + 1) ≤ 0x1000 ∧
      t = s.beginCycle.setVs 0 ((List.range (x.toNat + 1)).map fun k => s.byteAt (s.effAddr 0 + k))
where
  /-- The display and the collision the blit leaves (R153). -/
  drawn (s : State) (x y n : Nibble) : Display × Bool :=
    drawRows (s.getV x).toNat (s.getV y).toNat
      ((List.range n.toNat).map fun k => s.byteAt (s.effAddr 0 + k)) (s.disp, false)

/-- When a cycle of `i` from `s` raises `e` (R171 to R174). -/
def Raises (i : Instr) (s : State) (e : CycleFault) : Prop :=
  (e = .stackOverflow ∧ (∃ nnn, i = .call nnn) ∧ s.sp.val = 16) ∨
  (e = .stackUnderflow ∧ i = .ret ∧ s.sp.val = 0) ∨
  (∃ nnn, e = .invalidOpcode (encode (.sys nnn)) ∧ i = .sys nnn) ∨
  ∃ a, e = .illegalAccess a ∧
    ((∃ x y n, i = .drw x y n) ∨ (∃ x, i = .ldVxI x) ∨ (∃ x, i = .ldB x) ∨ ∃ x, i = .ldIVx x)

/-- A block store inside RAM, as `exec` uses it: the cases of one cycle. -/
theorem storeCycle_cases (s t : State) (bs : List Byte) (n : Nat) (hn : bs.length = n + 1)
    (h : runCycle s (fun u => u.storeBytes (s.effAddr 0) bs) = .next t) :
    (∃ a, t = s.enterFault (.illegalAccess a)) ∨
    (0x200 ≤ s.effAddr 0 ∧ s.effAddr 0 + (n + 1) ≤ 0x1000 ∧
      t = s.beginCycle.setMem (Memory.writeBytes s.fontTable s.mem (s.effAddr 0) bs)) := by
  rcases State.storeBytes_cases bs s.beginCycle (s.effAddr 0) with ⟨g, g2⟩ | ⟨a, g⟩
  · rw [runCycle_ok _ _ _ g] at h
    cases h
    rcases g2 with rfl | g2
    · simp at hn
    · exact .inr ⟨g2.1, hn ▸ g2.2, rfl⟩
  · rw [runCycle_error _ _ _ g] at h
    cases h
    exact .inl ⟨a, rfl⟩

/-- THE INVERSION: a cycle that answers `t` either took a fault its instruction can raise, from the state before the
cycle, or completed as the instruction's rule says. -/
theorem exec_cases (i : Instr) (s t : State) (h : exec i s = .next t) :
    (∃ e, t = s.enterFault e ∧ Raises i s e) ∨ Completes i s t := by
  cases i
  case ret =>
    simp only [exec, execRet] at h
    by_cases h0 : s.sp.val = 0
    · rw [runCycle_error _ .stackUnderflow _ (by simp [State.pop_error, h0])] at h
      cases h
      exact .inl ⟨_, rfl, .inr (.inl ⟨rfl, rfl, h0⟩)⟩
    · obtain ⟨a, u, g1, g2, g3, g4⟩ := State.pop_ok s.beginCycle h0
      rw [runCycle_ok _ (u.setPc a) _ (by simp only [g1])] at h
      cases h
      exact .inr ⟨u.sp, g2, a, g3, by rw [g4]; rfl⟩
  case call nnn =>
    simp only [exec, execCall] at h
    by_cases h0 : s.sp.val < 16
    · have : s.beginCycle.sp.val < 16 := h0
      simp [runCycle, State.push, h0] at h
      exact .inr ⟨h0, h.symm⟩
    · have h1 : s.sp.val = 16 := by have := s.sp.isLt; omega
      rw [runCycle_error _ .stackOverflow _ (by simp [State.push_error, h1])] at h
      cases h
      exact .inl ⟨_, rfl, .inl ⟨rfl, ⟨_, rfl⟩, h1⟩⟩
  case sys nnn => cases h; exact .inl ⟨_, rfl, .inr (.inr (.inl ⟨_, rfl, rfl⟩))⟩
  case drw x y n =>
    simp only [exec, execDrw] at h
    by_cases hk : n.toNat = 0 ∨ s.effAddr 0 + n.toNat ≤ 0x1000
    · rw [runCycle_ok _ _ _ (by simp only [State.readBytes_ok s.beginCycle (s.beginCycle.effAddr 0) _ hk]; rfl)] at h
      cases h
      exact .inr ⟨hk, rfl⟩
    · have hk' := not_or.1 hk
      rw [runCycle_error _ _ _ (by
        simp only [State.readBytes_error s.beginCycle (s.beginCycle.effAddr 0) _ hk'.1 (Nat.lt_of_not_le hk'.2)]
        rfl)] at h
      cases h
      exact .inl ⟨_, rfl, .inr (.inr (.inr ⟨_, rfl, .inl ⟨_, _, _, rfl⟩⟩))⟩
  case ldVxI x =>
    simp only [exec, execLdVxI] at h
    by_cases hk : s.effAddr 0 + (x.toNat + 1) ≤ 0x1000
    · rw [runCycle_ok _ _ _ (by
        simp only [State.readBytes_ok s.beginCycle (s.beginCycle.effAddr 0) _ (.inr hk)]; rfl)] at h
      cases h
      exact .inr ⟨hk, rfl⟩
    · rw [runCycle_error _ _ _ (by
        simp only [State.readBytes_error s.beginCycle (s.beginCycle.effAddr 0) _ (Nat.succ_ne_zero _)
          (Nat.lt_of_not_le hk)]
        rfl)] at h
      cases h
      exact .inl ⟨_, rfl, .inr (.inr (.inr ⟨_, rfl, .inr (.inl ⟨_, rfl⟩)⟩))⟩
  case ldB x =>
    simp only [exec, execLdB] at h
    rcases storeCycle_cases s t _ 2 (by rfl) h with ⟨a, rfl⟩ | g
    · exact .inl ⟨_, rfl, .inr (.inr (.inr ⟨_, rfl, .inr (.inr (.inl ⟨_, rfl⟩))⟩))⟩
    · exact .inr g
  case ldIVx x =>
    simp only [exec, execLdIVx] at h
    rcases storeCycle_cases s t _ x.toNat (State.firstVs_length s x) h with ⟨a, rfl⟩ | g
    · exact .inl ⟨_, rfl, .inr (.inr (.inr ⟨_, rfl, .inr (.inr (.inr ⟨_, rfl⟩))⟩))⟩
    · exact .inr g
  all_goals
    right
    cases h
    first
    | rfl
    | (simp only [State.skipIf_eq]; rfl)

/-- What one cycle can do: a fault of fetch or decode, or one instruction, fetched below 0xFFF (R80, R175). -/
theorem cycle_cases (s t : State) (h : cycle s = .next t) :
    (∃ e, t = s.enterFault e) ∨ ∃ i, s.pc.toNat ≤ 0xFFE ∧ exec i s = .next t := by
  unfold cycle at h
  by_cases hp : s.pc.toNat ≤ 0xFFE
  · rw [State.fetch_ok s hp] at h
    simp only at h
    split at h
    · cases h; exact .inl ⟨_, rfl⟩
    · exact .inr ⟨_, hp, h⟩
  · rw [State.fetch_error s (by omega)] at h
    cases h
    exact .inl ⟨_, rfl⟩

/-- What one `cpu_tick` can do: nothing, in the states that take no cycle, or one cycle (R80, R90). -/
theorem cpuTick_cases (s t : State) (h : cpuTick s = .next t) :
    (t = s ∧ (s.fsm = .awaitingKey ∨ s.fsm = .halted)) ∨
    (cycle s = .next t ∧ (s.fsm = .idle ∨ s.fsm = .running)) := by
  cases hf : s.fsm <;> simp only [cpuTick, hf] at h
  · exact .inr ⟨h, .inl rfl⟩
  · exact .inr ⟨h, .inr rfl⟩
  · cases h; exact .inl ⟨rfl, .inl rfl⟩
  · cases h; exact .inl ⟨rfl, .inr rfl⟩

end Sys2Proof.Machine
end

