-- ==== Sys2Proof/Laws/PerInstr.lean ====
section
/-! SUPPORT. A statement per instruction, about the instruction as syntax: the word `encode` gives it has the fixed bits
of its row of the opcode table (spec/30_encoding.md R63, R66: `op AND mask = match`). -/

namespace Sys2Proof.Laws.FixedBits

open Sys2Proof

/-- The mask and match of an instruction's row of R66. -/
def row : Instr → Word × Word
  | .cls => (0xFFFF, 0x00E0)
  | .ret => (0xFFFF, 0x00EE)
  | .sys _ => (0xF000, 0x0000)
  | .jp _ => (0xF000, 0x1000)
  | .call _ => (0xF000, 0x2000)
  | .seImm _ _ => (0xF000, 0x3000)
  | .sneImm _ _ => (0xF000, 0x4000)
  | .seReg _ _ => (0xF00F, 0x5000)
  | .ldImm _ _ => (0xF000, 0x6000)
  | .addImm _ _ => (0xF000, 0x7000)
  | .ldReg _ _ => (0xF00F, 0x8000)
  | .orReg _ _ => (0xF00F, 0x8001)
  | .andReg _ _ => (0xF00F, 0x8002)
  | .xorReg _ _ => (0xF00F, 0x8003)
  | .addReg _ _ => (0xF00F, 0x8004)
  | .sub _ _ => (0xF00F, 0x8005)
  | .shr _ _ => (0xF00F, 0x8006)
  | .subn _ _ => (0xF00F, 0x8007)
  | .shl _ _ => (0xF00F, 0x800E)
  | .sneReg _ _ => (0xF00F, 0x9000)
  | .ldI _ => (0xF000, 0xA000)
  | .jpV0 _ => (0xF000, 0xB000)
  | .rnd _ _ => (0xF000, 0xC000)
  | .drw _ _ _ => (0xF000, 0xD000)
  | .skp _ => (0xF0FF, 0xE09E)
  | .sknp _ => (0xF0FF, 0xE0A1)
  | .ldVxDT _ => (0xF0FF, 0xF007)
  | .ldVxK _ => (0xF0FF, 0xF00A)
  | .ldDTVx _ => (0xF0FF, 0xF015)
  | .ldSTVx _ => (0xF0FF, 0xF018)
  | .addI _ => (0xF0FF, 0xF01E)
  | .ldF _ => (0xF0FF, 0xF029)
  | .ldB _ => (0xF0FF, 0xF033)
  | .ldIVx _ => (0xF0FF, 0xF055)
  | .ldVxI _ => (0xF0FF, 0xF065)

/-- The encoded word matches its row. -/
def Statement (i : Instr) : Prop := encode i &&& (row i).1 = (row i).2

/-- The fixed bits of format NNN. -/
theorem mask_encNNN (m : Nibble) (nnn : Addr12) : encNNN m nnn &&& 0xF000 = m ++ (0 : Addr12) := by
  have h : (0xF000 : Word) = (0xF : Nibble) ++ (0 : Addr12) := by decide
  rw [h, encNNN, BitVec.and_append]
  congr 1
  · exact BitVec.and_allOnes
  · exact BitVec.and_zero

/-- The fixed bits of format XKK. -/
theorem mask_encXKK (m x : Nibble) (kk : Byte) : encXKK m x kk &&& 0xF000 = m ++ (0 : Addr12) := by
  have h : (0xF000 : Word) = (0xF : Nibble) ++ (0 : Nibble) ++ (0 : Byte) := by decide
  have h' : (m ++ (0 : Addr12) : Word) = m ++ (0 : Nibble) ++ (0 : Byte) := by revert m; decide
  rw [h, h', encXKK, BitVec.and_append, BitVec.and_append]
  congr 1
  · congr 1
    · exact BitVec.and_allOnes
    · exact BitVec.and_zero
  · exact BitVec.and_zero

/-- The fixed bits of format X. -/
theorem mask_encX (m x : Nibble) (kk : Byte) : encXKK m x kk &&& 0xF0FF = m ++ (0 : Nibble) ++ kk := by
  have h : (0xF0FF : Word) = (0xF : Nibble) ++ (0 : Nibble) ++ (0xFF : Byte) := by decide
  rw [h, encXKK, BitVec.and_append, BitVec.and_append]
  congr 1
  · congr 1
    · exact BitVec.and_allOnes
    · exact BitVec.and_zero
  · exact BitVec.and_allOnes

/-- The fixed bits of format XY. -/
theorem mask_encXY (m x y n : Nibble) :
    encXYN m x y n &&& 0xF00F = m ++ (0 : Nibble) ++ (0 : Nibble) ++ n := by
  have h : (0xF00F : Word) = (0xF : Nibble) ++ (0 : Nibble) ++ (0 : Nibble) ++ (0xF : Nibble) := by decide
  rw [h, encXYN, BitVec.and_append, BitVec.and_append, BitVec.and_append]
  congr 1
  · congr 1
    · congr 1
      · exact BitVec.and_allOnes
      · exact BitVec.and_zero
    · exact BitVec.and_zero
  · exact BitVec.and_allOnes

/-- The fixed bits of format XYN. -/
theorem mask_encXYN (m x y n : Nibble) : encXYN m x y n &&& 0xF000 = m ++ (0 : Addr12) := by
  have h : (0xF000 : Word) = (0xF : Nibble) ++ (0 : Nibble) ++ (0 : Nibble) ++ (0 : Nibble) := by decide
  have h' : (m ++ (0 : Addr12) : Word) = m ++ (0 : Nibble) ++ (0 : Nibble) ++ (0 : Nibble) := by revert m; decide
  rw [h, h', encXYN, BitVec.and_append, BitVec.and_append, BitVec.and_append]
  congr 1
  · congr 1
    · congr 1
      · exact BitVec.and_allOnes
      · exact BitVec.and_zero
    · exact BitVec.and_zero
  · exact BitVec.and_zero

theorem cls : Statement (.cls) := by unfold Statement; decide
theorem ret : Statement (.ret) := by unfold Statement; decide
theorem sys (nnn : Addr12) : Statement (.sys nnn) := mask_encNNN ..
theorem jp (nnn : Addr12) : Statement (.jp nnn) := mask_encNNN ..
theorem call (nnn : Addr12) : Statement (.call nnn) := mask_encNNN ..
theorem seImm (x : Nibble) (kk : Byte) : Statement (.seImm x kk) := mask_encXKK ..
theorem sneImm (x : Nibble) (kk : Byte) : Statement (.sneImm x kk) := mask_encXKK ..
theorem seReg (x : Nibble) (y : Nibble) : Statement (.seReg x y) := mask_encXY ..
theorem ldImm (x : Nibble) (kk : Byte) : Statement (.ldImm x kk) := mask_encXKK ..
theorem addImm (x : Nibble) (kk : Byte) : Statement (.addImm x kk) := mask_encXKK ..
theorem ldReg (x : Nibble) (y : Nibble) : Statement (.ldReg x y) := mask_encXY ..
theorem orReg (x : Nibble) (y : Nibble) : Statement (.orReg x y) := mask_encXY ..
theorem andReg (x : Nibble) (y : Nibble) : Statement (.andReg x y) := mask_encXY ..
theorem xorReg (x : Nibble) (y : Nibble) : Statement (.xorReg x y) := mask_encXY ..
theorem addReg (x : Nibble) (y : Nibble) : Statement (.addReg x y) := mask_encXY ..
theorem sub (x : Nibble) (y : Nibble) : Statement (.sub x y) := mask_encXY ..
theorem shr (x : Nibble) (y : Nibble) : Statement (.shr x y) := mask_encXY ..
theorem subn (x : Nibble) (y : Nibble) : Statement (.subn x y) := mask_encXY ..
theorem shl (x : Nibble) (y : Nibble) : Statement (.shl x y) := mask_encXY ..
theorem sneReg (x : Nibble) (y : Nibble) : Statement (.sneReg x y) := mask_encXY ..
theorem ldI (nnn : Addr12) : Statement (.ldI nnn) := mask_encNNN ..
theorem jpV0 (nnn : Addr12) : Statement (.jpV0 nnn) := mask_encNNN ..
theorem rnd (x : Nibble) (kk : Byte) : Statement (.rnd x kk) := mask_encXKK ..
theorem drw (x : Nibble) (y : Nibble) (n : Nibble) : Statement (.drw x y n) := mask_encXYN ..
theorem skp (x : Nibble) : Statement (.skp x) := mask_encX ..
theorem sknp (x : Nibble) : Statement (.sknp x) := mask_encX ..
theorem ldVxDT (x : Nibble) : Statement (.ldVxDT x) := mask_encX ..
theorem ldVxK (x : Nibble) : Statement (.ldVxK x) := mask_encX ..
theorem ldDTVx (x : Nibble) : Statement (.ldDTVx x) := mask_encX ..
theorem ldSTVx (x : Nibble) : Statement (.ldSTVx x) := mask_encX ..
theorem addI (x : Nibble) : Statement (.addI x) := mask_encX ..
theorem ldF (x : Nibble) : Statement (.ldF x) := mask_encX ..
theorem ldB (x : Nibble) : Statement (.ldB x) := mask_encX ..
theorem ldIVx (x : Nibble) : Statement (.ldIVx x) := mask_encX ..
theorem ldVxI (x : Nibble) : Statement (.ldVxI x) := mask_encX ..

end Sys2Proof.Laws.FixedBits
end

