-- ==== Sys2Proof/Tests/Slice0.lean ====
section
/-! SUPPORT. Tests. Expected results come from spec/95_test_vectors.md (its ids are in the comments) and from the
encodings of spec/30_encoding.md; then one witness for the hypotheses of each statement, clause by clause. -/

namespace Sys2Proof.Tests

open Sys2Proof Sys2Proof.Machine

/-! ## Well-formedness: a term each check refuses (30_encoding.md R63) -/

theorem test_wellFormed_refuses_sys_0E0 : (Instr.sys 0x0E0).wellFormed = false := by decide
theorem test_wellFormed_refuses_sys_0EE : (Instr.sys 0x0EE).wellFormed = false := by decide
theorem test_wellFormed_takes_their_neighbours :
    (Instr.sys 0x0E1).wellFormed = true ∧ (Instr.sys 0x0EF).wellFormed = true ∧ (Instr.sys 0x000).wellFormed = true := by
  decide

/-! ## Decoding: a word of every row of R66, written out bit by bit -/

theorem test_decode_cls : decodeBytes 0b00000000 0b11100000 = .ok .cls := by decide
theorem test_decode_ret : decodeBytes 0b00000000 0b11101110 = .ok .ret := by decide
theorem test_decode_sys : decodeBytes 0b00000001 0b00100011 = .ok (.sys 0x123) := by decide
theorem test_decode_jp : decodeBytes 0b00011010 0b10111100 = .ok (.jp 0xABC) := by decide
theorem test_decode_call : decodeBytes 0b00100011 0b00000001 = .ok (.call 0x301) := by decide
theorem test_decode_seImm : decodeBytes 0b00111010 0b01000010 = .ok (.seImm 0xA 0x42) := by decide
theorem test_decode_sneImm : decodeBytes 0b01001010 0b01000010 = .ok (.sneImm 0xA 0x42) := by decide
theorem test_decode_seReg : decodeBytes 0b01011010 0b10110000 = .ok (.seReg 0xA 0xB) := by decide
theorem test_decode_ldImm : decodeBytes 0b01100011 0b00101010 = .ok (.ldImm 0x3 0x2A) := by decide
theorem test_decode_addImm : decodeBytes 0b01111111 0b00000001 = .ok (.addImm 0xF 0x01) := by decide
theorem test_decode_ldReg : decodeBytes 0b10000001 0b00100000 = .ok (.ldReg 0x1 0x2) := by decide
theorem test_decode_orReg : decodeBytes 0b10000001 0b00100001 = .ok (.orReg 0x1 0x2) := by decide
theorem test_decode_andReg : decodeBytes 0b10000001 0b00100010 = .ok (.andReg 0x1 0x2) := by decide
theorem test_decode_xorReg : decodeBytes 0b10000001 0b00100011 = .ok (.xorReg 0x1 0x2) := by decide
theorem test_decode_addReg : decodeBytes 0b10000001 0b11110100 = .ok (.addReg 0x1 0xF) := by decide
theorem test_decode_sub : decodeBytes 0b10001111 0b00010101 = .ok (.sub 0xF 0x1) := by decide
theorem test_decode_shr : decodeBytes 0b10000010 0b11110110 = .ok (.shr 0x2 0xF) := by decide
theorem test_decode_subn : decodeBytes 0b10001010 0b10110111 = .ok (.subn 0xA 0xB) := by decide
theorem test_decode_shl : decodeBytes 0b10000010 0b00001110 = .ok (.shl 0x2 0x0) := by decide
theorem test_decode_sneReg : decodeBytes 0b10010001 0b00100000 = .ok (.sneReg 0x1 0x2) := by decide
theorem test_decode_ldI : decodeBytes 0b10100001 0b00100011 = .ok (.ldI 0x123) := by decide
theorem test_decode_jpV0 : decodeBytes 0b10111111 0b11111110 = .ok (.jpV0 0xFFE) := by decide
theorem test_decode_rnd : decodeBytes 0b11000011 0b00001111 = .ok (.rnd 0x3 0x0F) := by decide
theorem test_decode_drw : decodeBytes 0b11010001 0b00100101 = .ok (.drw 0x1 0x2 0x5) := by decide
theorem test_decode_skp : decodeBytes 0b11100100 0b10011110 = .ok (.skp 0x4) := by decide
theorem test_decode_sknp : decodeBytes 0b11100100 0b10100001 = .ok (.sknp 0x4) := by decide
theorem test_decode_ldVxDT : decodeBytes 0b11110010 0b00000111 = .ok (.ldVxDT 0x2) := by decide
theorem test_decode_ldVxK : decodeBytes 0b11111111 0b00001010 = .ok (.ldVxK 0xF) := by decide
theorem test_decode_ldDTVx : decodeBytes 0b11110011 0b00010101 = .ok (.ldDTVx 0x3) := by decide
theorem test_decode_ldSTVx : decodeBytes 0b11110011 0b00011000 = .ok (.ldSTVx 0x3) := by decide
theorem test_decode_addI : decodeBytes 0b11110010 0b00011110 = .ok (.addI 0x2) := by decide
theorem test_decode_ldF : decodeBytes 0b11110010 0b00101001 = .ok (.ldF 0x2) := by decide
theorem test_decode_ldB : decodeBytes 0b11110111 0b00110011 = .ok (.ldB 0x7) := by decide
theorem test_decode_ldIVx : decodeBytes 0b11110010 0b01010101 = .ok (.ldIVx 0x2) := by decide
theorem test_decode_ldVxI : decodeBytes 0b11111010 0b01100101 = .ok (.ldVxI 0xA) := by decide

/-- V-E10: words no pattern matches. -/
theorem test_decode_rejects :
    ([0x5AB1, 0x9AB1, 0x8AB8, 0x8ABF, 0xE19D, 0xE0A0, 0xF000, 0xF108, 0xF166] : List Word).all
      (fun w => decode w == .error (.invalidOpcode w)) = true := by decide

/-- The host's entry lays the high byte at the lower address (R50). -/
theorem test_decodeTableWord : decodeTableWord 16 0x632A = some (.ldImm 0x3 0x2A) ∧ decodeTableWord 16 0x5AB1 = none := by
  decide

/-! ## One step on a small state -/

/-- The state a step answered. -/
def after : StepResult → State
  | .next t => t
  | .fault e => nomatch e
  | .refused _ => State.reset

/-- The state after reset with some registers, `I`, and bytes at `I`. -/
def start (regs : List (Nibble × Byte)) (i : Word) (bytes : List Byte) : State :=
  let s := regs.foldl (fun s r => s.setV r.1 r.2) State.reset
  (s.setI i).setMem (Memory.writeBytes s.fontTable s.mem i.toNat bytes)

/-- One `cpu_tick` with the word `op` at `pc`. -/
def run (s : State) (op : Nat) : State := after (step (s.withFetchWord 16 op))

/-- `pc`, the register `x` and `V[15]`. -/
def pcVF (s : State) (x : Nibble) : Word × Byte × Byte := (s.pc, s.getV x, s.getV 15)

/-- The fault fields and `pc`. -/
def halt (s : State) : Fsm × FaultCause × Word × Word := (s.fsm, s.faultCause, s.faultInfo, s.pc)

/-- The lit columns of display row `y`. -/
def row (s : State) (y : Nat) : List Nat := (List.range 64).filter fun x => dispGet s.disp x y

/-- The bytes at `a` upward. -/
def bytes (s : State) (a n : Nat) : List Byte := (List.range n).map fun k => s.byteAt (a + k)

/-- A state with `n` live stack entries, all `a`. -/
def deep (n : Fin 17) (a : Word) : State := { State.reset with sp := n, stack := Vector.replicate 16 a }

-- Control flow: V-C3, V-C4, V-C6, V-C7, V-C8, V-C9, V-C12, V-C15, V-C16, V-C20, V-C21 to V-C23, V-T11.
theorem test_jp : (run State.reset 0x1ABC).pc = 0x0ABC := by decide
theorem test_call : let t := run (State.reset.setPc 0x246) 0x2300
    (t.pc, t.sp.val, t.stack[0]) = (0x0300, 1, 0x0248) := by decide
theorem test_call_full : halt (run (deep 16 0x0202) 0x2300) = (.halted, .stackOverflow, 0, 0x200) := by decide
theorem test_ret : let t := run (((deep 2 0x0248).setPc 0x300)) 0x00EE
    (t.pc, t.sp.val) = (0x0248, 1) := by decide
theorem test_ret_empty : halt (run State.reset 0x00EE) = (.halted, .stackUnderflow, 0, 0x200) := by decide
theorem test_sys : halt (run State.reset 0x0123) = (.halted, .invalidOpcode, 0x0123, 0x200) := by decide
theorem test_undecodable : halt (run State.reset 0x5121) = (.halted, .invalidOpcode, 0x5121, 0x200) := by decide
theorem test_seImm : (run (start [(10, 0x42)] 0 []) 0x3A42).pc = 0x204 := by decide
theorem test_sneImm : (run (start [(10, 0x42)] 0 []) 0x4A42).pc = 0x202 := by decide
theorem test_seReg : (run (start [(3, 0x09)] 0 []) 0x5330).pc = 0x204 := by decide
theorem test_sneReg : (run (start [(1, 0x07), (2, 0x08)] 0 []) 0x9120).pc = 0x204 := by decide
theorem test_jpV0 : (run (start [(0, 0xFF)] 0 []) 0xBFFF).pc = 0x10FE := by decide
theorem test_skip_past_memory : (run (State.reset.setPc 0xFFE) 0x3000).pc = 0x1002 := by decide
theorem test_fetch_past_memory : halt (after (step (State.reset.setPc 0x1002))) =
    (.halted, .illegalAccess, 0x1002, 0x1002) := by decide
theorem test_fetch_second_byte : halt (after (step (State.reset.setPc 0xFFF))) =
    (.halted, .illegalAccess, 0x1000, 0xFFF) := by decide
theorem test_run_without_load : halt (after (step State.reset)) = (.halted, .invalidOpcode, 0x0000, 0x200) := by decide

-- Registers and ALU: V-A1, V-A3 to V-A8, V-A11, V-A13, V-A16, V-A20, V-A24, V-A25, V-A28, V-A29, V-A30, V-A33, V-A36.
theorem test_ldImm : pcVF (run State.reset 0x632A) 3 = (0x202, 0x2A, 0x00) := by decide
theorem test_addImm : pcVF (run (start [(0, 0xFF), (15, 0x55)] 0 []) 0x7001) 0 = (0x202, 0x00, 0x55) := by decide
theorem test_addImm_VF : (run (start [(15, 0xFF)] 0 []) 0x7F01).getV 15 = 0x00 := by decide
theorem test_ldReg : pcVF (run (start [(1, 0x01), (2, 0x7F)] 0 []) 0x8120) 1 = (0x202, 0x7F, 0x00) := by decide
theorem test_orReg : pcVF (run (start [(1, 0xF0), (2, 0x0F), (15, 0x77)] 0 []) 0x8121) 1 = (0x202, 0xFF, 0x77) := by decide
theorem test_andReg : pcVF (run (start [(1, 0xF0), (2, 0x3C), (15, 0x77)] 0 []) 0x8122) 1 = (0x202, 0x30, 0x77) := by decide
theorem test_xorReg : pcVF (run (start [(1, 0xF0), (2, 0x3C), (15, 0x77)] 0 []) 0x8123) 1 = (0x202, 0xCC, 0x77) := by decide
theorem test_addReg : pcVF (run (start [(0, 0xFE), (1, 0x01), (15, 0x01)] 0 []) 0x8014) 0 = (0x202, 0xFF, 0x00) := by decide
theorem test_addReg_VF : (run (start [(15, 0xFF), (1, 0x01)] 0 []) 0x8F14).getV 15 = 0x01 := by decide
theorem test_sub : pcVF (run (start [(0, 0x01), (1, 0x02)] 0 []) 0x8015) 0 = (0x202, 0xFF, 0x00) := by decide
theorem test_sub_VF : (run (start [(15, 0x05), (1, 0x03)] 0 []) 0x8F15).getV 15 = 0x01 := by decide
theorem test_shr : pcVF (run (start [(2, 0x05), (15, 0x80)] 0 []) 0x82F6) 2 = (0x202, 0x02, 0x01) := by decide
theorem test_shr_VF : (run (start [(15, 0x03)] 0 []) 0x8F06).getV 15 = 0x01 := by decide
theorem test_subn : pcVF (run (start [(1, 0x05), (2, 0x03)] 0 []) 0x8127) 1 = (0x202, 0xFE, 0x00) := by decide
theorem test_subn_equal : pcVF (run (start [(1, 0x05), (2, 0x05)] 0 []) 0x8127) 1 = (0x202, 0x00, 0x01) := by decide
theorem test_shl : pcVF (run (start [(2, 0x81)] 0 []) 0x820E) 2 = (0x202, 0x02, 0x01) := by decide
theorem test_shl_VF : (run (start [(15, 0x40)] 0 []) 0x8F0E).getV 15 = 0x00 := by decide
theorem test_rnd_zero : (after (exec (.rnd 3 0x00) State.reset)).getV 3 = 0x00 := by
  show Config.rnd 0 &&& 0x00 = 0x00
  simp

-- Index register and memory: V-M1, V-M3, V-M7, V-M9, V-M13, V-M14, V-M17, V-M22, V-M23, V-M27.
theorem test_ldI : (run State.reset 0xA123).i = 0x0123 := by decide
theorem test_addI : let t := run (start [(2, 0x02), (15, 0x07)] 0xFFFF []) 0xF21E
    (t.i, t.getV 15) = (0x0001, 0x07) := by decide
theorem test_ldF : (run (start [(2, 0x10)] 0 []) 0xF229).i = 0x00A0 := by decide
theorem test_ldB : bytes (run (start [(0, 0x9D)] 0x300 []) 0xF033) 0x300 4 = [1, 5, 7, 0] := by decide
theorem test_ldB_top : let t := run (start [(0, 0xFF)] 0xFFE []) 0xF033
    (halt t, bytes t 0xFFE 2) = ((.halted, .illegalAccess, 0x1000, 0x200), [0, 0]) := by decide
theorem test_ldIVx : let t := run (start [(0, 0x11), (1, 0x22), (2, 0x33), (3, 0x44)] 0x300 []) 0xF255
    (bytes t 0x300 4, t.i) = ([0x11, 0x22, 0x33, 0x00], 0x300) := by decide
theorem test_ldIVx_low : let t := run (start [(0, 0x01), (1, 0x02)] 0x1FF []) 0xF155
    (halt t, bytes t 0x200 1) = ((.halted, .illegalAccess, 0x01FF, 0x200), [0xF1]) := by decide
theorem test_ldVxI : let t := run (start [(3, 0xEE)] 0x300 [1, 5, 7, 9]) 0xF265
    (t.getV 0, t.getV 1, t.getV 2, t.getV 3, t.i) = (1, 5, 7, 0xEE, 0x300) := by decide
theorem test_ldVxI_top : let t := run (start [(0, 0x55)] 0xFF8 [1, 2, 3, 4, 5, 6, 7, 8]) 0xF865
    (halt t, t.getV 0) = ((.halted, .illegalAccess, 0x1000, 0x200), 0x55) := by decide

/-- Glyph 7 of the default font stands at 0x073 (R29). -/
theorem test_default_font : bytes State.reset 0x073 5 = [0xF0, 0x10, 0x20, 0x40, 0x40] := by decide
/-- Another `FONT_TABLE` is read from the font region, and nowhere else (R29, R30). -/
theorem test_other_font : let s := State.resetWith (Vector.replicate 80 0x18)
    (bytes s 0x04F 2, bytes s 0x09F 2) = ([0x00, 0x18], [0x18, 0x00]) := by decide

-- Display: V-D1, V-D5, V-D9, V-D11, V-D12, V-D14.
theorem test_cls : let t := run { State.reset with disp := dispSet dispClear 63 31 true } 0x00E0
    (row t 31, t.drawFlag) = ([], true) := by decide
theorem test_drw_wraps : let t := run (start [(0, 60), (1, 31)] 0x300 [0xFF]) 0xD011
    (row t 31, row t 0, t.getV 15, t.drawFlag) = ([0, 1, 2, 3, 60, 61, 62, 63], [], 0x00, true) := by decide
theorem test_drw_collides :
    let s := { start [] 0x300 [0xF0] with disp := dispSet (dispSet dispClear 3 0 true) 4 0 true }
    (row (run s 0xD011) 0, (run s 0xD011).getV 15) = ([0, 1, 2, 4], 0x01) := by decide
theorem test_drw_past_memory : let t := run (start [(15, 0x01)] 0xFFF [0xFF]) 0xD012
    (halt t, row t 0, t.getV 15, t.drawFlag) = ((.halted, .illegalAccess, 0x1000, 0x200), [], 0x01, false) := by decide
theorem test_drw_no_rows : pcVF (run (start [(15, 0x01)] 0xFFFF []) 0xD010) 15 = (0x202, 0x00, 0x00) := by decide

-- Keypad, timers, events: V-K3, V-K5, V-K7 to V-K10, V-K13, V-T1, V-T3, V-T5, V-T8.
theorem test_skp : (run ((start [(4, 0x15)] 0 []).setKeyLatch 5 true) 0xE49E).pc = 0x204 := by decide
theorem test_sknp : (run ((start [(4, 0x05)] 0 []).setKeyLatch 5 true) 0xE4A1).pc = 0x202 := by decide
theorem test_ldVxDT : let t := run (State.reset.setDT 0x07) 0xF207
    (t.getV 2, t.dt, t.pc) = (0x07, 0x07, 0x202) := by decide
theorem test_ldDTVx : (run (start [(0, 0x0A)] 0 []) 0xF015).dt = 0x0A := by decide
theorem test_ldSTVx : (run (start [(3, 0x1E)] 0 []) 0xF318).st = 0x1E := by decide
theorem test_ldVxK : let t := run ((State.reset.setPc 0x204).setKeyLatch 3 true) 0xFF0A
    (t.fsm, t.waitX, t.pc) = (.awaitingKey, 15, 0x206) := by decide
theorem test_key_ends_wait : let t := (run (State.reset.setPc 0x204) 0xFF0A).setKeyEvent 3 true
    (t.fsm, t.getV 15, t.getKey 3, t.pc) = (.running, 0x03, true, 0x206) := by decide
theorem test_timerTick : let t := ((State.reset.setDT 0x02).setST 0x01).timerTick
    ((t.dt, t.st), (t.timerTick.dt, t.timerTick.st), t.timerTick.timerTick.dt) = ((1, 0), (0, 0), 0) := by decide
theorem test_ackDraw : (State.reset.setDrawFlag true).ackDraw = State.reset := by decide
theorem test_load : (State.reset.loadRom [0x60, 0x2A]).mem = [(0x200, 0x60), (0x201, 0x2A)] := by decide
theorem test_load_too_long (bytes : List Byte) (h : bytes.length = 0xE01) :
    response (.load bytes) State.reset = .invalidRom := by simp [response, romFits, h]

/-! ## Witnesses: for each statement with hypotheses, a state and operands that meet them, clause by clause -/

theorem witness_DecodeOfEncodeIsIdentity : (Instr.sys 0x0E1).wellFormed = true ∧ (Instr.drw 15 15 15).wellFormed = true := by
  decide
theorem witness_EncodeOfDecodeIsIdentity : decode 0x0FFF = .ok (.sys 0xFFF) ∧ decode 0xD125 = .ok (.drw 1 2 5) := by decide
theorem witness_UndecodableWords : decode 0x9AB1 = .error (.invalidOpcode 0x9AB1) ∧
    decode 0x8ABF = .error (.invalidOpcode 0x8ABF) ∧ decode 0xE0A0 = .error (.invalidOpcode 0xE0A0) ∧
    decode 0xF166 = .error (.invalidOpcode 0xF166) ∧ decode 0x8ABE = .ok (.shl 0xA 0xB) := by decide
theorem witness_MemRead : State.reset.memRead 0xFFF = .ok 0x00 ∧ State.reset.memRead 0x1000 = .error (.illegalAccess 0x1000) := by
  decide
theorem witness_MemWrite : (0x200 ≤ 0x200 ∧ 0x200 ≤ 0xFFF) ∧ (0x200 ≤ 0xFFF ∧ 0xFFF ≤ 0xFFF) ∧
    State.reset.memWrite 0x1FF 0x01 = .error (.illegalAccess 0x1FF) ∧
    State.reset.memWrite 0x1000 0x01 = .error (.illegalAccess 0x1000) := by decide
theorem witness_Stack : (deep 16 0x0202).sp.val = 16 ∧ State.reset.sp.val = 0 ∧ (deep 15 0x0202).sp.val < 16 ∧
    0 < (deep 1 0x0202).sp.val := by decide

/-- `JP 0x200` loaded at 0x200. -/
def looping : State := State.reset.loadRom [0x12, 0x00]

theorem witness_StepRuns_noEvent : looping.events = [] ∧ looping.fsm = .idle ∧ looping.pc.toNat ≤ 0xFFE ∧
    decodeBytes (looping.byteAt looping.pc.toNat) (looping.byteAt (looping.pc.toNat + 1)) =
      .ok (.jp 0x200) := by decide
theorem witness_StepRuns_event : let s := looping.setEvents [.cpuTick, .timerTick]
    s.events = .cpuTick :: [.timerTick] ∧ s.fsm = .idle ∧ s.pc.toNat ≤ 0xFFE ∧
    decodeBytes (s.byteAt s.pc.toNat) (s.byteAt (s.pc.toNat + 1)) = .ok (.jp 0x200) := by decide
theorem witness_StepRuns_lastWord : let s := (start [] 0xFFE [0x60, 0x01]).setPc 0xFFE
    s.events = [] ∧ s.fsm = .idle ∧ s.pc.toNat ≤ 0xFFE ∧
    decodeBytes (s.byteAt s.pc.toNat) (s.byteAt (s.pc.toNat + 1)) = .ok (.ldImm 0 0x01) := by decide
theorem witness_FetchFaults : (0xFFF < (State.reset.setPc 0x1000).pc.toNat ∧ (State.reset.setPc 0x1000).fsm = .idle) ∧
    (State.reset.setPc 0xFFF).pc.toNat = 0xFFF ∧
    (let s := start [] 0x200 [0x5A, 0xB1]
     s.fsm = .idle ∧ s.pc.toNat ≤ 0xFFE ∧
     0x5AB1 = opcodeOfBytes (s.byteAt s.pc.toNat) (s.byteAt (s.pc.toNat + 1)) ∧
     decode 0x5AB1 = .error (.invalidOpcode 0x5AB1)) := by decide
theorem witness_TickOutsideRunning : (State.reset.setFsm .awaitingKey).fsm = .awaitingKey ∧
    (State.reset.enterFault .stackOverflow).fsm = .halted := by decide

/-- A cycle that halts, and one that completes. -/
theorem witness_FaultedCycle_exec : ∃ t, exec .ret State.reset = .next t ∧ t.fsm = .halted := ⟨_, rfl, rfl⟩
theorem witness_FaultedCycle_tick_halts : State.reset.fsm = .idle ∧
    ∃ t, cpuTick State.reset = .next t ∧ t.fsm = .halted := ⟨rfl, _, rfl, by decide⟩
theorem witness_FaultedCycle_tick_completes : looping.fsm = .idle ∧
    ∃ t, cpuTick looping = .next t ∧ t.fsm ≠ .halted := ⟨rfl, _, rfl, by decide⟩
theorem witness_StackFaults_call : ∃ t, exec (.call 0x300) (deep 16 0x0202) = .next t ∧ t.fsm = .halted ∧
    t.faultCause = .stackOverflow := ⟨_, rfl, rfl, rfl⟩
theorem witness_StackFaults_ret : ∃ t, exec .ret State.reset = .next t ∧ t.fsm = .halted ∧
    t.faultCause = .stackUnderflow := ⟨_, rfl, rfl, rfl⟩
theorem witness_OtherFaults_access : ∃ t, exec (.ldB 0) State.reset = .next t ∧ t.fsm = .halted ∧
    t.faultCause = .illegalAccess := ⟨_, rfl, rfl, rfl⟩
theorem witness_OtherFaults_sys : ∃ t, exec (.sys 0x123) State.reset = .next t ∧ t.fsm = .halted ∧
    t.faultCause = .invalidOpcode := ⟨_, rfl, rfl, rfl⟩
theorem witness_DrawFlag : (∃ t, exec .cls State.reset = .next t ∧ t.drawFlag = true) ∧
    ∃ t, exec (.jp 0x200) State.reset = .next t ∧ t.drawFlag = false := ⟨⟨_, rfl, rfl⟩, _, rfl, rfl⟩
theorem witness_CompletedCycle : (∃ t, exec (.ldVxK 3) State.reset = .next t ∧ t.fsm ≠ .halted) ∧
    ∃ t, exec (.jp 0x200) State.reset = .next t ∧ t.fsm ≠ .halted := ⟨⟨_, rfl, by decide⟩, _, rfl, by decide⟩
theorem witness_TickNeverCounts : (∃ t, cpuTick (looping.setDrawFlag true) = .next t ∧
    (looping.setDrawFlag true).drawFlag = true) ∧ ∃ t, exec (.ldDTVx 3) State.reset = .next t := ⟨⟨_, rfl, rfl⟩, _, rfl⟩
theorem witness_OnlyNamed_V : (∃ t, exec (.addReg 1 2) State.reset = .next t ∧ t.fsm ≠ .halted) ∧
    (Instr.addReg 1 2).mayWrite 3 = false ∧ (Instr.addReg 1 2).definesFlag = true :=
  ⟨⟨_, rfl, by decide⟩, by decide, rfl⟩
theorem witness_OnlyNamed_I : ∃ t, exec (.ldI 0x123) State.reset = .next t ∧ t.i ≠ State.reset.i := ⟨_, rfl, by decide⟩
theorem witness_OnlyNamed_stack : ∃ t, exec (.call 0x300) State.reset = .next t ∧ t.sp ≠ State.reset.sp :=
  ⟨_, rfl, by decide⟩
theorem witness_OnlyNamed_disp : let s := { State.reset with disp := dispSet dispClear 0 0 true }
    ∃ t, exec .cls s = .next t ∧ t.disp ≠ s.disp := ⟨_, rfl, by decide⟩

theorem witness_Sys : (0x0E1 : Addr12) ≠ 0x0E0 ∧ (0x0E1 : Addr12) ≠ 0x0EE := by decide
theorem witness_Call : (deep 15 0x0202).sp.val < 16 ∧ (deep 16 0x0202).sp.val = 16 := by decide
theorem witness_Return : 0 < (deep 1 0x0202).sp.val ∧ (deep 0 0x0202).sp.val = 0 := by decide
theorem witness_SkipOnImmediate : (start [(10, 0x42)] 0 []).getV 10 = 0x42 ∧ State.reset.getV 10 ≠ 0x42 := by decide
theorem witness_SkipOnRegisters : (1 : Nibble) ≠ 0 ∧ State.reset.getV 1 = State.reset.getV 2 ∧
    (start [(1, 0x07)] 0 []).getV 1 ≠ (start [(1, 0x07)] 0 []).getV 2 := by decide
/-- AddRegistersSetsCarry and the four other flag statements: a destination that is not the flag register. -/
theorem witness_FlagDestination : (14 : Nibble) ≠ 15 ∧ (0 : Nibble) ≠ 15 := by decide

theorem witness_StoreBcd_ok : (0x200 ≤ (start [] 0x200 []).effAddr 0 ∧ (start [] 0x200 []).effAddr 2 ≤ 0xFFF) ∧
    (0x200 ≤ (start [] 0xFFD []).effAddr 0 ∧ (start [] 0xFFD []).effAddr 2 ≤ 0xFFF) := by decide
theorem witness_StoreBcd_first : (start [] 0x1FF []).effAddr 0 < 0x200 ∧ 0xFFF < (start [] 0x1000 []).effAddr 0 := by decide
theorem witness_StoreBcd_top : 0x200 ≤ (start [] 0xFFE []).effAddr 0 ∧ (start [] 0xFFE []).effAddr 0 ≤ 0xFFF ∧
    0xFFF < (start [] 0xFFE []).effAddr 2 := by decide
theorem witness_StoreRegisters_ok : 0x200 ≤ (start [] 0xFF0 []).effAddr 0 ∧
    (start [] 0xFF0 []).effAddr (15 : Nibble).toNat ≤ 0xFFF ∧ (15 : Nibble).toNat ≤ (15 : Nibble).toNat := by decide
theorem witness_StoreRegisters_first : (start [] 0x050 []).effAddr 0 < 0x200 ∧ 0xFFF < (start [] 0x1000 []).effAddr 0 := by
  decide
theorem witness_StoreRegisters_top : 0x200 ≤ (start [] 0xFF1 []).effAddr 0 ∧ (start [] 0xFF1 []).effAddr 0 ≤ 0xFFF ∧
    0xFFF < (start [] 0xFF1 []).effAddr (15 : Nibble).toNat := by decide
theorem witness_LoadRegisters : (start [] 0xFF8 []).effAddr (7 : Nibble).toNat ≤ 0xFFF ∧
    0xFFF < (start [] 0xFF8 []).effAddr (8 : Nibble).toNat ∧ 0xFFF < (start [] 0xFFFF []).effAddr (0 : Nibble).toNat := by
  decide
theorem witness_Draw_ok : (start [] 0xFFF []).effAddr ((1 : Nibble).toNat - 1) ≤ 0xFFF ∧ (0 : Nibble) = 0 := by decide
theorem witness_Draw_fault : (2 : Nibble) ≠ 0 ∧ 0xFFF < (start [] 0xFFF []).effAddr ((2 : Nibble).toNat - 1) := by decide

/-- The first rows of a glyph drawn at (0, 0) onto an all-off display (V-D3), and the draw after it (V-D4). -/
theorem witness_DrawingTwice : let s := start [] 0x050 []
    let t := after (exec (.drw 0 1 2) s)
    let u := after (exec (.drw 0 1 2) t)
    exec (.drw 0 1 2) s = .next t ∧ t.fsm = .running ∧ t.getV 0 = s.getV 0 ∧ t.getV 1 = s.getV 1 ∧
      exec (.drw 0 1 2) t = .next u ∧ s.disp = dispClear :=
  ⟨rfl, rfl, by decide, by decide, rfl, rfl⟩

theorem witness_SkipOnKey : let s := (start [(4, 0x15)] 0 []).setKeyLatch 5 true
    (5 : Nibble).toNat = (s.getV 4).toNat % 16 ∧ s.getKey 5 = true ∧ State.reset.getKey 5 = false := by decide
theorem witness_WaitForKey : (3 : Nibble) ≠ 4 := by decide
theorem witness_SetKey : ((State.reset.setFsm .awaitingKey).fsm = .awaitingKey ∧ true = true) ∧
    ¬ (State.reset.fsm = .awaitingKey ∧ true = true) ∧
    ¬ ((State.reset.setFsm .awaitingKey).fsm = .awaitingKey ∧ false = true) ∧ (3 : Nibble) ≠ 4 := by decide
theorem witness_Load : (List.replicate 0xE00 (0xAA : Byte)).length ≤ 0xE00 ∧
    0xE00 < (List.replicate 0xE01 (0xBB : Byte)).length := by
  rw [List.length_replicate, List.length_replicate]; decide
theorem witness_ResetValues : 0x04F < 0x050 ∧ 0x09F < 0x0A0 := by decide
theorem witness_FontTableIsAFixedParameter : ∃ t, step State.reset = .next t := ⟨_, rfl⟩
theorem witness_OnlyResetLeavesHalted : let s := State.reset.enterFault .stackOverflow
    s.fsm = .halted ∧ (∃ t, perform .reset s = .next t) ∧ (∃ t, perform .cpuTick s = .next t) ∧ Event.cpuTick ≠ .reset :=
  ⟨rfl, ⟨_, rfl⟩, ⟨_, rfl⟩, by decide⟩
theorem witness_Commutes : (∃ t, exec (.jp 0x200) State.reset = .next t) ∧ State.reset.fsm ≠ .awaitingKey ∧
    (¬ (∃ x, Instr.jp 0x200 = .ldVxDT x) ∧ ¬ (∃ x, Instr.jp 0x200 = .ldDTVx x) ∧ ¬ ∃ x, Instr.jp 0x200 = .ldSTVx x) ∧
    (¬ (∃ x, Instr.jp 0x200 = .skp x) ∧ ¬ (∃ x, Instr.jp 0x200 = .sknp x) ∧ ¬ ∃ x, Instr.jp 0x200 = .ldVxK x) ∧
    Instr.jp 0x200 ≠ .cls ∧ ¬ ∃ x y n, Instr.jp 0x200 = .drw x y n :=
  ⟨⟨_, rfl⟩, by decide, by simp, by simp, by simp, by simp⟩

/-- A state that meets the invariant: reset. -/
theorem witness_Inv : Inv State.reset where
  memWf := by decide
  memRam := by decide
  cause := by decide
  stack := by decide
  pc := by decide
theorem witness_EveryStep : ∃ t, step State.reset = .next t := ⟨_, rfl⟩
theorem witness_LowMemory : (∃ t, Host.Core.run Sys2Proof.core 3 State.reset = .next t) ∧ 0x1FF < 0x200 := ⟨⟨_, rfl⟩, by decide⟩

end Sys2Proof.Tests
end

section
/-! The memory primitives of spec/20_memory.md: one byte read (R46) and one byte written (R47). -/

namespace Sys2Proof.Proofs

open Sys2Proof Sys2Proof.Machine

/-- Settles O6: the two branches of `State.memRead_eq`. -/
theorem memReadAnswersByteOrFaults : Obligations.MemReadAnswersByteOrFaults := by
  unfold Obligations.MemReadAnswersByteOrFaults
  intro s a
  rw [State.memRead_eq]
  constructor
  · intro inSpace
    exact if_pos inSpace
  · intro above
    exact if_neg (Nat.not_le.mpr above)

/-- Settles O7: the two branches of `State.memWrite_eq`; what the stored state reads as is `State.byteAt_write`. -/
theorem memWriteStoresOnlyInRam : Obligations.MemWriteStoresOnlyInRam := by
  unfold Obligations.MemWriteStoresOnlyInRam
  intro s a b
  rw [State.memWrite_eq]
  constructor
  · intro inRam
    refine ⟨_, if_pos inRam, ?_, ?_, rfl⟩
    · rw [State.byteAt_write, if_pos rfl]
    · intro c hc
      rw [State.byteAt_write, if_neg hc.symm]
  · intro outside
    exact if_neg (by omega)

end Sys2Proof.Proofs
end

section
/-! The decoder and the opcode table (spec/30_encoding.md R63 to R67). A row's mask keeps whole fields of a word (R61),
so a row matches by its major opcode and, where its mask is longer, by `n` or `kk`: the very fields the decoder selects
by (R65). Two rows whose patterns differ in a bit that both masks keep match no common word. -/

namespace Sys2Proof.Proofs

open Sys2Proof

/-! ## When an encoded word is a given word -/

theorem encNNN_eq_iff {m : Nibble} {nnn : Addr12} {op : Word} :
    encNNN m nnn = op ↔ m = opMajor op ∧ nnn = opNNN op := by
  constructor
  · rintro rfl
    simp
  · rintro ⟨rfl, rfl⟩
    exact encNNN_fields op

theorem encXKK_eq_iff {m x : Nibble} {kk : Byte} {op : Word} :
    encXKK m x kk = op ↔ m = opMajor op ∧ x = opX op ∧ kk = opKK op := by
  constructor
  · rintro rfl
    simp
  · rintro ⟨rfl, rfl, rfl⟩
    exact encXKK_fields op

theorem encXYN_eq_iff {m x y n : Nibble} {op : Word} :
    encXYN m x y n = op ↔ m = opMajor op ∧ x = opX op ∧ y = opY op ∧ n = opN op := by
  constructor
  · rintro rfl
    simp
  · rintro ⟨rfl, rfl, rfl, rfl⟩
    exact encXYN_fields op

/-! ## The fields a mask of R66 keeps -/

theorem nibble_and_F (x : Nibble) : x &&& 15#4 = x :=
  BitVec.and_allOnes

theorem byte_and_FF (kk : Byte) : kk &&& 255#8 = kk :=
  BitVec.and_allOnes

theorem and_FFFF (op : Word) : op &&& 0xFFFF#16 = op :=
  BitVec.and_allOnes

theorem and_F000 (op : Word) : op &&& 0xF000#16 = encNNN (opMajor op) 0 := by
  rw [← encNNN_fields (op &&& 0xF000#16)]
  simp [opMajor, opNNN, BitVec.extractLsb'_and, nibble_and_F]

theorem and_F00F (op : Word) : op &&& 0xF00F#16 = encXYN (opMajor op) 0 0 (opN op) := by
  rw [← encXYN_fields (op &&& 0xF00F#16)]
  simp [opMajor, opX, opY, opN, BitVec.extractLsb'_and, nibble_and_F]

theorem and_F0FF (op : Word) : op &&& 0xF0FF#16 = encXKK (opMajor op) 0 (opKK op) := by
  rw [← encXKK_fields (op &&& 0xF0FF#16)]
  simp [opMajor, opX, opKK, BitVec.extractLsb'_and, nibble_and_F, byte_and_FF]

/-! ## When a row with pattern `p` matches (R63)

The fields of `op` are compared as numbers, as the decoder compares them; those of `p` are written out, so that `simp`
evaluates them for the literal patterns of the table. -/

/-- The major opcode is named beside the whole word, so that CLS and RET drop out for every major opcode but 0. -/
@[simp] theorem and_FFFF_eq_iff (op p : Word) : op &&& 0xFFFF#16 = p ↔
    (opMajor op).toNat = (p.extractLsb' 12 4).toNat ∧ op = p := by
  rw [and_FFFF]
  constructor
  · rintro rfl
    exact ⟨rfl, rfl⟩
  · rintro ⟨-, same⟩
    exact same

@[simp] theorem and_F000_eq_iff (op p : Word) : op &&& 0xF000#16 = p ↔
    (opMajor op).toNat = (p.extractLsb' 12 4).toNat ∧ 0 = p.extractLsb' 0 12 := by
  rw [and_F000, BitVec.toNat_inj]
  exact encNNN_eq_iff

@[simp] theorem and_F00F_eq_iff (op p : Word) : op &&& 0xF00F#16 = p ↔
    (opMajor op).toNat = (p.extractLsb' 12 4).toNat ∧ 0 = p.extractLsb' 8 4 ∧ 0 = p.extractLsb' 4 4 ∧
      (opN op).toNat = (p.extractLsb' 0 4).toNat := by
  rw [and_F00F, BitVec.toNat_inj, BitVec.toNat_inj]
  exact encXYN_eq_iff

@[simp] theorem and_F0FF_eq_iff (op p : Word) : op &&& 0xF0FF#16 = p ↔
    (opMajor op).toNat = (p.extractLsb' 12 4).toNat ∧ 0 = p.extractLsb' 8 4 ∧
      (opKK op).toNat = (p.extractLsb' 0 8).toNat := by
  rw [and_F0FF, BitVec.toNat_inj, BitVec.toNat_inj]
  exact encXKK_eq_iff

/-! ## First match in a list of rows -/

/-- What `decodeByTable` does, on any list of rows. -/
def firstMatch (rows : List OpcodeRow) (op : Word) : Except DecodeError Instr :=
  match rows.find? (fun r => op &&& r.mask == r.pattern) with
  | some r => .ok (r.build op)
  | none => .error (.invalidOpcode op)

theorem decodeByTable_eq_firstMatch (op : Word) :
    decodeByTable op = firstMatch (opcodeRowsA ++ opcodeRowsB ++ opcodeRowsC) op :=
  rfl

@[simp] theorem firstMatch_nil (op : Word) : firstMatch [] op = .error (.invalidOpcode op) :=
  rfl

@[simp] theorem firstMatch_cons (r : OpcodeRow) (rows : List OpcodeRow) (op : Word) :
    firstMatch (r :: rows) op = if op &&& r.mask = r.pattern then .ok (r.build op) else firstMatch rows op := by
  unfold firstMatch
  by_cases isMatch : op &&& r.mask = r.pattern <;> simp [isMatch]

/-! ## The decoder of each major opcode is the first match of its rows: the case split is the decoder's own (R65) -/

/-- The selection by `n = 0` of major opcodes 5 and 9, with `n` as a number. -/
theorem decodeXY0_eq (op : Word) (i : Instr) :
    decodeXY0 op i = if (opN op).toNat = 0 then .ok i else .error (.invalidOpcode op) := by
  have zero : opN op = 0 ↔ (opN op).toNat = 0 := BitVec.toNat_inj.symm
  simp only [decodeXY0, zero]

theorem decode0_eq_decodeByTable (op : Word) (major : (opMajor op).toNat = 0x0) :
    .ok (decode0 op) = decodeByTable op := by
  unfold decode0
  rw [apply_ite Except.ok, apply_ite Except.ok]
  simp [decodeByTable_eq_firstMatch, opcodeRowsA, major]

theorem decode8_eq_decodeByTable (op : Word) (major : (opMajor op).toNat = 0x8) : decode8 op = decodeByTable op := by
  unfold decode8
  split <;> simp_all [decodeByTable_eq_firstMatch, opcodeRowsA, opcodeRowsB, opcodeRowsC]

theorem decodeE_eq_decodeByTable (op : Word) (major : (opMajor op).toNat = 0xE) : decodeE op = decodeByTable op := by
  unfold decodeE
  split <;> simp_all [decodeByTable_eq_firstMatch, opcodeRowsA, opcodeRowsB, opcodeRowsC]

theorem decodeF_eq_decodeByTable (op : Word) (major : (opMajor op).toNat = 0xF) : decodeF op = decodeByTable op := by
  unfold decodeF
  split <;> simp_all [decodeByTable_eq_firstMatch, opcodeRowsA, opcodeRowsB, opcodeRowsC]

/-- Every major opcode but 0, 8, E and F has one row. -/
theorem decode_eq_decodeByTable (op : Word) : decode op = decodeByTable op := by
  unfold decode
  split
  case h_1 major => exact decode0_eq_decodeByTable op major
  case h_9 major => exact decode8_eq_decodeByTable op major
  case h_15 major => exact decodeE_eq_decodeByTable op major
  case h_16 =>
    have bound := (opMajor op).isLt
    simp only [imp_false] at *
    exact decodeF_eq_decodeByTable op (by omega)
  all_goals
    rename_i major
    simp [decodeXY0_eq, decodeByTable_eq_firstMatch, opcodeRowsA, opcodeRowsB, opcodeRowsC, major]

/-! ## Disjoint rows -/

/-- The patterns of the rows `r` and `q` differ in a bit that both masks keep. -/
def PatternsDiffer (r q : OpcodeRow) : Prop := r.pattern &&& q.mask ≠ q.pattern &&& r.mask

theorem not_both_match {r q : OpcodeRow} (differ : PatternsDiffer r q) (op : Word) :
    ¬ (op &&& r.mask = r.pattern ∧ op &&& q.mask = q.pattern) := by
  rintro ⟨matchR, matchQ⟩
  apply differ
  calc r.pattern &&& q.mask
    _ = op &&& r.mask &&& q.mask := by rw [matchR]
    _ = op &&& q.mask &&& r.mask := by rw [BitVec.and_assoc, BitVec.and_comm r.mask, BitVec.and_assoc]
    _ = q.pattern &&& r.mask := by rw [matchQ]

theorem patternsDiffer_withoutSys : (opcodeTable.eraseIdx 2).Pairwise PatternsDiffer := by
  unfold PatternsDiffer
  decide

theorem patternsDiffer_fromSys : (opcodeTable.drop 2).Pairwise PatternsDiffer := by
  unfold PatternsDiffer
  decide

/-- Settles O3: the decoder agrees with the table for each major opcode; the rows are disjoint because their patterns
differ in a bit that both masks keep. -/
theorem decodeIsFirstMatchOfOpcodeTable : Obligations.DecodeIsFirstMatchOfOpcodeTable := by
  unfold Obligations.DecodeIsFirstMatchOfOpcodeTable
  refine ⟨decode_eq_decodeByTable, fun op => ⟨?_, ?_⟩⟩
  · exact patternsDiffer_withoutSys.imp (not_both_match · op)
  · exact patternsDiffer_fromSys.imp (not_both_match · op)

end Sys2Proof.Proofs
end

section
/-! What a cycle does to the fields the host shares with the program (spec/40_execution_cycle.md R86, R91): the key
latches, the timers, the draw-flag. One case split over the completed cycles says it for every instruction. -/

namespace Sys2Proof.Proofs

open Sys2Proof Sys2Proof.Machine

/-- What a completed cycle of `i` from `s` to `t` does to `key`, DT, ST, the draw-flag and `fsm`. -/
structure HostFrame (i : Instr) (s t : State) : Prop where
  key : t.key = s.key
  dt : t.dt = s.dt ∨ ∃ x, i = .ldDTVx x ∧ t.dt = s.getV x
  st : t.st = s.st ∨ ∃ x, i = .ldSTVx x ∧ t.st = s.getV x
  drawFlag : t.drawFlag = true ↔ s.drawFlag = true ∨ (i = .cls ∨ ∃ x y n, i = .drw x y n)
  notHalted : t.fsm ≠ .halted

/-- An instruction other than CLS and DRW that leaves the four fields as they were. -/
theorem HostFrame.of_unchanged {i : Instr} {s t : State} (notDrawing : ¬ (i = .cls ∨ ∃ x y n, i = .drw x y n))
    (key : t.key = s.key) (dt : t.dt = s.dt) (st : t.st = s.st) (drawFlag : t.drawFlag = s.drawFlag)
    (fsm : t.fsm = .running) : HostFrame i s t where
  key := key
  dt := .inl dt
  st := .inl st
  drawFlag := by rw [drawFlag, or_iff_left notDrawing]
  notHalted := by rw [fsm]; decide

theorem hostFrame_of_completes {i : Instr} {s t : State} (h : Completes i s t) : HostFrame i s t := by
  cases i
  case cls => cases h; exact ⟨rfl, .inl rfl, .inl rfl, by simp, by simp⟩
  case drw => obtain ⟨-, rfl⟩ := h; exact ⟨rfl, .inl rfl, .inl rfl, by simp, by simp⟩
  case ldDTVx x => cases h; exact ⟨rfl, .inr ⟨x, rfl, rfl⟩, .inl rfl, by simp, by simp⟩
  case ldSTVx x => cases h; exact ⟨rfl, .inl rfl, .inr ⟨x, rfl, rfl⟩, by simp, by simp⟩
  case ldVxK => cases h; exact ⟨rfl, .inl rfl, .inl rfl, by simp, by simp⟩
  case sys => exact h.elim
  case ret => obtain ⟨_, -, _, -, rfl⟩ := h; exact .of_unchanged (by simp) rfl rfl rfl rfl rfl
  case call => obtain ⟨_, rfl⟩ := h; exact .of_unchanged (by simp) rfl rfl rfl rfl rfl
  case ldVxI =>
    obtain ⟨-, rfl⟩ := h
    rw [State.setVs_eq]
    exact .of_unchanged (by simp) rfl rfl rfl rfl rfl
  case ldB | ldIVx => obtain ⟨-, -, rfl⟩ := h; exact .of_unchanged (by simp) rfl rfl rfl rfl rfl
  all_goals cases h; exact .of_unchanged (by simp) rfl rfl rfl rfl rfl

/-- A cycle takes a fault from the state before it, or keeps the host's fields as `HostFrame` says. -/
theorem enterFault_or_hostFrame {i : Instr} {s t : State} (h : exec i s = .next t) :
    (∃ e, t = s.enterFault e) ∨ HostFrame i s t := by
  rcases exec_cases i s t h with ⟨e, fault, -⟩ | completed
  · exact .inl ⟨e, fault⟩
  · exact .inr (hostFrame_of_completes completed)

/-- A `cpu_tick` changes nothing, takes a fault, or completes one instruction. -/
theorem cpuTick_hostFrame {s t : State} (h : cpuTick s = .next t) :
    t = s ∨ (∃ e, t = s.enterFault e) ∨ ∃ i, exec i s = .next t ∧ HostFrame i s t := by
  rcases cpuTick_cases s t h with ⟨same, -⟩ | ⟨ran, -⟩
  · exact .inl same
  · rcases cycle_cases s t ran with fault | ⟨i, -, executed⟩
    · exact .inr (.inl fault)
    · exact .inr ((enterFault_or_hostFrame executed).imp_right fun frame => ⟨i, executed, frame⟩)

/-- Settles O16: a fault keeps the flag and halts; a completed cycle sets it as `HostFrame.drawFlag` says. -/
theorem drawFlagIsSetByClsAndDrwOnly : Obligations.DrawFlagIsSetByClsAndDrwOnly := by
  unfold Obligations.DrawFlagIsSetByClsAndDrwOnly
  intro i s t h
  rcases enterFault_or_hostFrame h with ⟨e, rfl⟩ | frame
  · simp
  · rw [frame.drawFlag, and_iff_right frame.notHalted]

/-- Settles O18: the three outcomes of a `cpu_tick`; only the completed instruction can touch a timer or the flag. -/
theorem tickNeverCountsTimersNorTouchesKeys : Obligations.TickNeverCountsTimersNorTouchesKeys := by
  unfold Obligations.TickNeverCountsTimersNorTouchesKeys
  intro s t h
  rcases cpuTick_hostFrame h with rfl | ⟨e, rfl⟩ | ⟨i, executed, frame⟩
  · exact ⟨rfl, id, .inl rfl⟩
  · exact ⟨rfl, id, .inr (.inl ⟨e, rfl⟩)⟩
  · exact ⟨frame.key, fun wasSet => frame.drawFlag.mpr (.inl wasSet), .inr (.inr ⟨i, executed, frame.dt, frame.st⟩)⟩

end Sys2Proof.Proofs
end

section
/-! Jumps, calls and skips (spec/41_control_flow.md R102, R103, R105 to R107, R109). JP and the skips complete in every
state, CALL below depth 16, and then nothing but `pc`, `fsm` and, for CALL, the stack has changed. -/

namespace Sys2Proof.Proofs

open Sys2Proof Sys2Proof.Machine

/-! ## What the words of this family decode to -/

theorem decode_jp (nnn : Addr12) : decode (encNNN 0x1 nnn) = .ok (.jp nnn) := by
  simp [decode]

theorem decode_call (nnn : Addr12) : decode (encNNN 0x2 nnn) = .ok (.call nnn) := by
  simp [decode]

theorem decode_seImm (x : Nibble) (kk : Byte) : decode (encXKK 0x3 x kk) = .ok (.seImm x kk) := by
  simp [decode]

theorem decode_sneImm (x : Nibble) (kk : Byte) : decode (encXKK 0x4 x kk) = .ok (.sneImm x kk) := by
  simp [decode]

/-- `5xyn` is SE Vx, Vy for `n` = 0 alone. -/
theorem decode_5xyn (x y n : Nibble) : decode (encXYN 0x5 x y n) =
    if n = 0 then .ok (.seReg x y) else .error (.invalidOpcode (encXYN 0x5 x y n)) := by
  simp [decode, decodeXY0]

/-- `9xyn` is SNE Vx, Vy for `n` = 0 alone. -/
theorem decode_9xyn (x y n : Nibble) : decode (encXYN 0x9 x y n) =
    if n = 0 then .ok (.sneReg x y) else .error (.invalidOpcode (encXYN 0x9 x y n)) := by
  simp [decode, decodeXY0]

/-! ## Jumps and calls -/

/-- The 12-bit target is zero-extended (R62). -/
@[simp] theorem toNat_addrWord (nnn : Addr12) : (addrWord nnn).toNat = nnn.toNat :=
  BitVec.toNat_setWidth_of_le (by decide)

/-- A cycle that only replaces `pc` after Advance keeps all else. -/
theorem frame_beginCycle_setPc (s : State) (a : Word) : Frame {} s (s.beginCycle.setPc a) :=
  ⟨fun _ _ => rfl, fun _ => rfl, fun _ => ⟨rfl, rfl⟩, fun _ _ => rfl, fun _ => rfl, fun _ => rfl, fun _ => rfl,
    fun _ => rfl, fun _ => ⟨rfl, rfl⟩, fun _ => rfl, fun _ => rfl, fun _ => rfl, rfl, rfl⟩

theorem exec_jp (nnn : Addr12) (s : State) : exec (.jp nnn) s = .next (s.beginCycle.setPc (addrWord nnn)) :=
  rfl

/-- Settles O21: `exec_jp` in every state. -/
theorem jumpSetsPcExactly : Obligations.JumpSetsPcExactly := by
  unfold Obligations.JumpSetsPcExactly
  intro nnn s
  exact ⟨decode_jp nnn, _, exec_jp nnn s, toNat_addrWord nnn, rfl, frame_beginCycle_setPc s _⟩

/-- The state CALL leaves below depth 16: the advanced `pc` is pushed. -/
def afterCall (nnn : Addr12) (s : State) (h : s.sp.val < 16) : State :=
  { s.beginCycle with
    stack := s.stack.set s.sp.val (s.pc + 2) h, sp := ⟨s.sp.val + 1, by omega⟩, pc := addrWord nnn }

theorem exec_call_of_sp_lt (nnn : Addr12) (s : State) (h : s.sp.val < 16) :
    exec (.call nnn) s = .next (afterCall nnn s h) := by
  rw [exec, execCall]
  exact runCycle_ok _ _ _ (by simp [State.push, h, afterCall, State.setPc])

theorem exec_call_of_sp_eq (nnn : Addr12) (s : State) (h : s.sp.val = 16) :
    exec (.call nnn) s = .next (s.enterFault .stackOverflow) := by
  rw [exec, execCall]
  exact runCycle_error _ _ _ (by simp [State.push_error, h])

theorem frame_afterCall (nnn : Addr12) (s : State) (h : s.sp.val < 16) :
    Frame { stack := true } s (afterCall nnn s h) :=
  { frame_beginCycle_setPc s (addrWord nnn) with stack := nofun }

/-- Settles O22: below depth 16 only the slot at `sp` is written; at depth 16 the cycle is fault entry. -/
theorem callPushesReturnAddress : Obligations.CallPushesReturnAddress := by
  unfold Obligations.CallPushesReturnAddress
  intro nnn s
  refine ⟨decode_call nnn, fun h => ?_, fun full => exec_call_of_sp_eq nnn s full⟩
  refine ⟨_, exec_call_of_sp_lt nnn s h, toNat_addrWord nnn, rfl, rfl, ?_, ?_, frame_afterCall nnn s h⟩
  · exact Vector.getElem_set_self ..
  · intro k other
    exact Vector.getElem_set_ne h k.isLt other.symm

/-! ## Skips -/

/-- A cycle that ends in a skip on `c` completes and moves `pc` alone: 4 where `c` holds, else 2 (R14, R83). -/
theorem skip_completes {i : Instr} {s : State} {c : Bool} {skips stays : Prop}
    (runs : exec i s = .next (s.beginCycle.skipIf c)) (taken : skips → c = true) (notTaken : stays → c = false) :
    ∃ t, exec i s = .next t ∧ t.fsm = .running ∧ Frame {} s t ∧
      (skips → t.pc = s.pc + 4) ∧ (stays → t.pc = s.pc + 2) := by
  rw [State.skipIf_eq] at runs
  refine ⟨_, runs, rfl, frame_beginCycle_setPc s _, fun hSkip => ?_, fun hStay => ?_⟩
  · rw [taken hSkip]
    exact BitVec.add_assoc s.pc 2 2
  · rw [notTaken hStay]
    rfl

/-- Settles O25: SE skips on `==`, SNE on `!=`, of the register and the immediate. -/
theorem skipOnImmediate : Obligations.SkipOnImmediate := by
  unfold Obligations.SkipOnImmediate
  intro x kk s
  refine ⟨decode_seImm x kk, decode_sneImm x kk, ?_, ?_⟩
  · exact skip_completes (c := s.getV x == kk) rfl beq_iff_eq.mpr beq_eq_false_iff_ne.mpr
  · exact skip_completes (c := s.getV x != kk) rfl bne_iff_ne.mpr bne_eq_false_iff_eq.mpr

/-- Settles O26: SE skips on `==`, SNE on `!=`, of the two registers. -/
theorem skipOnRegisters : Obligations.SkipOnRegisters := by
  unfold Obligations.SkipOnRegisters
  intro x y s
  refine ⟨fun n nonzero => ⟨?_, ?_⟩, decode_5xyn x y 0, decode_9xyn x y 0, ?_, ?_⟩
  · rw [decode_5xyn, if_neg nonzero]
  · rw [decode_9xyn, if_neg nonzero]
  · exact skip_completes (c := s.getV x == s.getV y) rfl beq_iff_eq.mpr beq_eq_false_iff_ne.mpr
  · exact skip_completes (c := s.getV x != s.getV y) rfl bne_iff_ne.mpr bne_eq_false_iff_eq.mpr

end Sys2Proof.Proofs
end

section
/-! Register loads, sums, differences and shifts (spec/42_register_alu.md R122, R124, R129 to R131, R133, R134). Each
completes in every state: one register write, or the write of R121, the result to `V[x]` and then a flag to `V[15]`. -/

namespace Sys2Proof.Proofs

open Sys2Proof Sys2Proof.Machine

/-! ## What the words of this family decode to -/

theorem decode_ldImm (x : Nibble) (kk : Byte) : decode (encXKK 0x6 x kk) = .ok (.ldImm x kk) := by
  simp [decode]

/-- Major opcode 8 selects by the low nibble (R65). -/
theorem decode_8xyn (x y n : Nibble) : decode (encXYN 0x8 x y n) = decode8 (encXYN 0x8 x y n) := by
  simp [decode]

theorem decode_ldReg (x y : Nibble) : decode (encXYN 0x8 x y 0x0) = .ok (.ldReg x y) := by
  rw [decode_8xyn]
  simp [decode8]

theorem decode_addReg (x y : Nibble) : decode (encXYN 0x8 x y 0x4) = .ok (.addReg x y) := by
  rw [decode_8xyn]
  simp [decode8]

theorem decode_sub (x y : Nibble) : decode (encXYN 0x8 x y 0x5) = .ok (.sub x y) := by
  rw [decode_8xyn]
  simp [decode8]

theorem decode_shr (x y : Nibble) : decode (encXYN 0x8 x y 0x6) = .ok (.shr x y) := by
  rw [decode_8xyn]
  simp [decode8]

theorem decode_subn (x y : Nibble) : decode (encXYN 0x8 x y 0x7) = .ok (.subn x y) := by
  rw [decode_8xyn]
  simp [decode8]

theorem decode_shl (x y : Nibble) : decode (encXYN 0x8 x y 0xE) = .ok (.shl x y) := by
  rw [decode_8xyn]
  simp [decode8]

/-! ## The two kinds of register write -/

theorem frame_beginCycle_setV (s : State) (x : Nibble) (b : Byte) :
    Frame { v := onlyV x } s (s.beginCycle.setV x b) :=
  { frame_beginCycle_setPc s (s.pc + 2) with
    v := fun r other => by
      rw [State.getV_setV, if_neg (beq_eq_false_iff_ne.mp other).symm, State.beginCycle_getV] }

theorem frame_beginCycle_setVFlag (s : State) (x : Nibble) (result : Byte) (flag : Bool) :
    Frame { v := onlyVAndFlag x } s (s.beginCycle.setVFlag x result flag) :=
  { frame_beginCycle_setPc s (s.pc + 2) with
    v := fun r other => by
      obtain ⟨notX, notFlag⟩ := Bool.or_eq_false_iff.mp other
      rw [State.setVFlag_getV, if_neg (beq_eq_false_iff_ne.mp notFlag), if_neg (beq_eq_false_iff_ne.mp notX),
        State.beginCycle_getV] }

/-- A cycle that ends in one register write completes, and that register is all it changes. -/
theorem setV_completes {i : Instr} {s : State} {x : Nibble} {b : Byte}
    (runs : exec i s = .next (s.beginCycle.setV x b)) :
    ∃ t, exec i s = .next t ∧ t.getV x = b ∧ t.pc = s.pc + 2 ∧ t.fsm = .running ∧
      Frame { v := onlyV x } s t :=
  ⟨_, runs, by rw [State.getV_setV, if_pos rfl], rfl, rfl, frame_beginCycle_setV s x b⟩

/-- A cycle that ends in a flag-defining write completes: the result is in `V[x]` unless `x` is 15, where the flag
overwrites it (R121, D13). -/
theorem setVFlag_completes {i : Instr} {s : State} {x : Nibble} {result : Byte} {flag : Bool}
    (runs : exec i s = .next (s.beginCycle.setVFlag x result flag)) :
    ∃ t, exec i s = .next t ∧ (x ≠ 15 → t.getV x = result) ∧ t.getV 15 = flagByte flag ∧
      t.pc = s.pc + 2 ∧ t.fsm = .running ∧ Frame { v := onlyVAndFlag x } s t := by
  refine ⟨_, runs, fun notFlag => ?_, ?_, rfl, rfl, frame_beginCycle_setVFlag s x result flag⟩
  · rw [State.setVFlag_getV, if_neg notFlag, if_pos rfl]
  · rw [State.setVFlag_getV, if_pos rfl]

/-! ## Results and flags as numbers -/

theorem toNat_flagByte_decide (p : Prop) [Decidable p] : (flagByte (decide p)).toNat = if p then 1 else 0 := by
  by_cases h : p <;> simp [flagByte, h]

/-- The carry of R120. -/
theorem toNat_flagByte_carryOf (a b : Byte) :
    (flagByte (carryOf a b)).toNat = if a.toNat + b.toNat > 255 then 1 else 0 :=
  toNat_flagByte_decide _

/-- "No borrow" of R120. -/
theorem toNat_flagByte_noBorrow (a b : Byte) : (flagByte (noBorrow a b)).toNat = if a.toNat ≥ b.toNat then 1 else 0 :=
  toNat_flagByte_decide _

/-- The bit SHR shifts out is the remainder of the halving. -/
theorem toNat_flagByte_shiftOutLow (a : Byte) : (flagByte (shiftOutLow a)).toNat = a.toNat % 2 := by
  have bit : shiftOutLow a = decide (a.toNat % 2 = 1) := Nat.testBit_zero a.toNat
  rw [bit, toNat_flagByte_decide]
  split <;> omega

/-- The bit SHL shifts out is the quotient by 128. -/
theorem toNat_flagByte_shiftOutHigh (a : Byte) : (flagByte (shiftOutHigh a)).toNat = a.toNat / 128 := by
  have bit : shiftOutHigh a = decide (128 ≤ a.toNat) := BitVec.msb_eq_decide a
  rw [bit, toNat_flagByte_decide]
  have := a.isLt
  split <;> omega

/-- Subtraction of bytes is that of integers modulo 256. -/
theorem toNat_byte_sub (a b : Byte) : ((a - b).toNat : Int) = (a.toNat - b.toNat : Int) % 256 := by
  rw [BitVec.toNat_sub]
  have := b.isLt
  omega

/-! ## What each cycle answers: its operands are read before any write (R121) -/

theorem exec_addReg (x y : Nibble) (s : State) : exec (.addReg x y) s =
    .next (s.beginCycle.setVFlag x (s.getV x + s.getV y) (carryOf (s.getV x) (s.getV y))) :=
  rfl

theorem exec_sub (x y : Nibble) (s : State) : exec (.sub x y) s =
    .next (s.beginCycle.setVFlag x (s.getV x - s.getV y) (noBorrow (s.getV x) (s.getV y))) :=
  rfl

theorem exec_subn (x y : Nibble) (s : State) : exec (.subn x y) s =
    .next (s.beginCycle.setVFlag x (s.getV y - s.getV x) (noBorrow (s.getV y) (s.getV x))) :=
  rfl

theorem exec_shr (x y : Nibble) (s : State) : exec (.shr x y) s =
    .next (s.beginCycle.setVFlag x (s.getV x >>> 1) (shiftOutLow (s.getV x))) :=
  rfl

theorem exec_shl (x y : Nibble) (s : State) : exec (.shl x y) s =
    .next (s.beginCycle.setVFlag x (s.getV x <<< 1) (shiftOutHigh (s.getV x))) :=
  rfl

/-! ## Loads -/

/-- Settles O27: one register write, of the immediate. -/
theorem loadImmediateWritesRegister : Obligations.LoadImmediateWritesRegister := by
  unfold Obligations.LoadImmediateWritesRegister
  intro x kk s
  exact ⟨decode_ldImm x kk, setV_completes rfl⟩

/-- Settles O28: one register write, of the old `V[y]`. -/
theorem copyRegisterWritesRegister : Obligations.CopyRegisterWritesRegister := by
  unfold Obligations.CopyRegisterWritesRegister
  intro x y s
  exact ⟨decode_ldReg x y, setV_completes rfl⟩

/-! ## Sums, differences and shifts -/

/-- Settles O31: a flag-defining write of the sum and its carry. -/
theorem addRegistersSetsCarry : Obligations.AddRegistersSetsCarry := by
  unfold Obligations.AddRegistersSetsCarry
  intro x y s
  obtain ⟨t, runs, result, flag, keeps⟩ := setVFlag_completes (exec_addReg x y s)
  refine ⟨decode_addReg x y, t, runs, fun notFlag => ?_, ?_, keeps⟩
  · rw [result notFlag, BitVec.toNat_add]
  · rw [flag, toNat_flagByte_carryOf]

/-- Settles O32: a flag-defining write of `V[x] - V[y]` and its "no borrow". -/
theorem subtractSetsNoBorrow : Obligations.SubtractSetsNoBorrow := by
  unfold Obligations.SubtractSetsNoBorrow
  intro x y s
  obtain ⟨t, runs, result, flag, keeps⟩ := setVFlag_completes (exec_sub x y s)
  refine ⟨decode_sub x y, t, runs, fun notFlag => ?_, ?_, keeps⟩
  · rw [result notFlag, toNat_byte_sub]
  · rw [flag, toNat_flagByte_noBorrow]

/-- Settles O33: a flag-defining write of `V[y] - V[x]` and its "no borrow". -/
theorem subtractReverseSetsNoBorrow : Obligations.SubtractReverseSetsNoBorrow := by
  unfold Obligations.SubtractReverseSetsNoBorrow
  intro x y s
  obtain ⟨t, runs, result, flag, keeps⟩ := setVFlag_completes (exec_subn x y s)
  refine ⟨decode_subn x y, t, runs, fun notFlag => ?_, ?_, keeps⟩
  · rw [result notFlag, toNat_byte_sub]
  · rw [flag, toNat_flagByte_noBorrow]

/-- Settles O34: a flag-defining write of the half and the old bit 0; `y` is not read. -/
theorem shiftRightSetsBitShiftedOut : Obligations.ShiftRightSetsBitShiftedOut := by
  unfold Obligations.ShiftRightSetsBitShiftedOut
  intro x y s
  obtain ⟨t, runs, result, flag, keeps⟩ := setVFlag_completes (exec_shr x y s)
  refine ⟨decode_shr x y, fun _ => rfl, t, runs, fun notFlag => ?_, ?_, keeps⟩
  · rw [result notFlag, BitVec.toNat_ushiftRight, Nat.shiftRight_eq_div_pow]
  · rw [flag, toNat_flagByte_shiftOutLow]

/-- Settles O35: a flag-defining write of the double and the old bit 7; `y` is not read. -/
theorem shiftLeftSetsBitShiftedOut : Obligations.ShiftLeftSetsBitShiftedOut := by
  unfold Obligations.ShiftLeftSetsBitShiftedOut
  intro x y s
  obtain ⟨t, runs, result, flag, keeps⟩ := setVFlag_completes (exec_shl x y s)
  refine ⟨decode_shl x y, fun _ => rfl, t, runs, fun notFlag => ?_, ?_, keeps⟩
  · rw [result notFlag, BitVec.toNat_shiftLeft, Nat.shiftLeft_eq]
  · rw [flag, toNat_flagByte_shiftOutHigh]

end Sys2Proof.Proofs
end

section
/-! Writes of the index register (spec/43_index_memory.md R140): no address is refused, since a protected address is
caught where `I` is used. -/

namespace Sys2Proof.Proofs

open Sys2Proof Sys2Proof.Machine

theorem decode_ldI (nnn : Addr12) : decode (encNNN 0xA nnn) = .ok (.ldI nnn) := by
  simp [decode]

theorem frame_beginCycle_setI (s : State) (a : Word) : Frame { i := true } s (s.beginCycle.setI a) :=
  { frame_beginCycle_setPc s (s.pc + 2) with i := nofun }

/-- A cycle that ends in one write of `I` completes, and `I` is all it changes. -/
theorem setI_completes {i : Instr} {s : State} {a : Word} (runs : exec i s = .next (s.beginCycle.setI a)) :
    ∃ t, exec i s = .next t ∧ t.i = a ∧ t.pc = s.pc + 2 ∧ t.fsm = .running ∧ Frame { i := true } s t :=
  ⟨_, runs, rfl, rfl, rfl, frame_beginCycle_setI s a⟩

theorem exec_ldI (nnn : Addr12) (s : State) : exec (.ldI nnn) s = .next (s.beginCycle.setI (addrWord nnn)) :=
  rfl

/-- Settles O37: one write of `I`, of the zero-extended address. -/
theorem loadIndexZeroExtends : Obligations.LoadIndexZeroExtends := by
  unfold Obligations.LoadIndexZeroExtends
  intro nnn s
  obtain ⟨t, runs, index, keeps⟩ := setI_completes (exec_ldI nnn s)
  refine ⟨decode_ldI nnn, t, runs, ?_, keeps⟩
  rw [index, toNat_addrWord]

end Sys2Proof.Proofs
end

section
/-! The timer loads (spec/45_timers_keypad.md R162, R165, R166). Each completes in every state with one write: of a
register from `DT`, or of one timer from a register. -/

namespace Sys2Proof.Proofs

open Sys2Proof Sys2Proof.Machine

/-! ## What the words of this family decode to -/

/-- Major opcode F selects by the low byte (R65). -/
theorem decode_Fxkk (x : Nibble) (kk : Byte) : decode (encXKK 0xF x kk) = decodeF (encXKK 0xF x kk) := by
  simp [decode]

theorem decode_ldVxDT (x : Nibble) : decode (encXKK 0xF x 0x07) = .ok (.ldVxDT x) := by
  rw [decode_Fxkk]
  simp [decodeF]

theorem decode_ldDTVx (x : Nibble) : decode (encXKK 0xF x 0x15) = .ok (.ldDTVx x) := by
  rw [decode_Fxkk]
  simp [decodeF]

theorem decode_ldSTVx (x : Nibble) : decode (encXKK 0xF x 0x18) = .ok (.ldSTVx x) := by
  rw [decode_Fxkk]
  simp [decodeF]

/-! ## Each timer is written alone -/

theorem frame_beginCycle_setDT (s : State) (b : Byte) : Frame { dt := true } s (s.beginCycle.setDT b) :=
  { frame_beginCycle_setPc s (s.pc + 2) with dt := nofun }

theorem frame_beginCycle_setST (s : State) (b : Byte) : Frame { st := true } s (s.beginCycle.setST b) :=
  { frame_beginCycle_setPc s (s.pc + 2) with st := nofun }

/-! ## What each cycle answers -/

theorem exec_ldVxDT (x : Nibble) (s : State) : exec (.ldVxDT x) s = .next (s.beginCycle.setV x s.dt) :=
  rfl

theorem exec_ldDTVx (x : Nibble) (s : State) : exec (.ldDTVx x) s = .next (s.beginCycle.setDT (s.getV x)) :=
  rfl

theorem exec_ldSTVx (x : Nibble) (s : State) : exec (.ldSTVx x) s = .next (s.beginCycle.setST (s.getV x)) :=
  rfl

/-! ## The timer loads -/

/-- Settles O46: one register write, of `DT`. -/
theorem readDelayTimer : Obligations.ReadDelayTimer := by
  unfold Obligations.ReadDelayTimer
  intro x s
  exact ⟨decode_ldVxDT x, setV_completes (exec_ldVxDT x s)⟩

/-- Settles O47: one write of the timer, of `V[x]`. -/
theorem setTimers : Obligations.SetTimers := by
  unfold Obligations.SetTimers
  intro x s
  refine ⟨decode_ldDTVx x, decode_ldSTVx x, ?_, ?_⟩
  · exact ⟨_, exec_ldDTVx x s, rfl, rfl, rfl, frame_beginCycle_setDT s _⟩
  · exact ⟨_, exec_ldSTVx x s, rfl, rfl, rfl, frame_beginCycle_setST s _⟩

end Sys2Proof.Proofs
end

section
/-! The stack faults (spec/60_exceptions.md R172, R173). `exec_cases` names the faults an instruction can raise; that CALL
and RET raise theirs at the depth limits is the cycle itself. -/

namespace Sys2Proof.Proofs

open Sys2Proof Sys2Proof.Machine

@[simp] theorem cause_eq_stackOverflow_iff (e : CycleFault) : e.cause = .stackOverflow ↔ e = .stackOverflow := by
  cases e <;> simp [CycleFault.cause]

@[simp] theorem cause_eq_stackUnderflow_iff (e : CycleFault) : e.cause = .stackUnderflow ↔ e = .stackUnderflow := by
  cases e <;> simp [CycleFault.cause]

@[simp] theorem raises_stackOverflow_iff (i : Instr) (s : State) :
    Raises i s .stackOverflow ↔ (∃ nnn, i = .call nnn) ∧ s.sp.val = 16 := by
  simp [Raises]

@[simp] theorem raises_stackUnderflow_iff (i : Instr) (s : State) :
    Raises i s .stackUnderflow ↔ i = .ret ∧ s.sp.val = 0 := by
  simp [Raises]

/-- A cycle that ends `Halted` took a fault of its instruction: a completed cycle never halts (R87). -/
theorem raises_of_halted {i : Instr} {s t : State} (h : exec i s = .next t) (halted : t.fsm = .halted) :
    ∃ e, t = s.enterFault e ∧ Raises i s e :=
  (exec_cases i s t h).resolve_right fun completed => (hostFrame_of_completes completed).notHalted halted

theorem exec_ret_of_sp_eq_zero (s : State) (h : s.sp.val = 0) :
    exec .ret s = .next (s.enterFault .stackUnderflow) := by
  rw [exec, execRet]
  exact runCycle_error _ _ _ (by simp [State.pop_error, h])

/-- Settles O14: a stack cause is one its instruction raises, and at the depth limits the cycle is that fault's entry. -/
theorem stackFaultsComeFromCallAndRetOnly : Obligations.StackFaultsComeFromCallAndRetOnly := by
  unfold Obligations.StackFaultsComeFromCallAndRetOnly
  intro i s t h
  refine ⟨⟨fun ⟨halted, cause⟩ => ?_, ?_⟩, ⟨fun ⟨halted, cause⟩ => ?_, ?_⟩, fun halted cause => ?_⟩
  · obtain ⟨e, rfl, raised⟩ := raises_of_halted h halted
    obtain rfl := (cause_eq_stackOverflow_iff e).mp cause
    exact (raises_stackOverflow_iff i s).mp raised
  · rintro ⟨⟨nnn, rfl⟩, full⟩
    cases (exec_call_of_sp_eq nnn s full).symm.trans h
    exact ⟨rfl, rfl⟩
  · obtain ⟨e, rfl, raised⟩ := raises_of_halted h halted
    obtain rfl := (cause_eq_stackUnderflow_iff e).mp cause
    exact (raises_stackUnderflow_iff i s).mp raised
  · rintro ⟨rfl, empty⟩
    cases (exec_ret_of_sp_eq_zero s empty).symm.trans h
    exact ⟨rfl, rfl⟩
  · obtain ⟨e, rfl, -⟩ := raises_of_halted h halted
    rw [State.enterFault_faultCause, cause_eq_stackOverflow_iff, cause_eq_stackUnderflow_iff] at cause
    rcases cause with rfl | rfl <;> rfl

end Sys2Proof.Proofs
end

section
/-! The event `set_key` (spec/60_exceptions.md R188). It writes one latch; a press in `AwaitingKey` is also the second
half of LD Vx, K (R164). -/

namespace Sys2Proof.Proofs

open Sys2Proof Sys2Proof.Machine

/-- A press in `AwaitingKey` writes the index to `V[wait_x]` and resumes. -/
theorem setKeyEvent_of_wakes {s : State} {p : Bool} (wakes : s.fsm = .awaitingKey ∧ p = true) (k : Nibble) :
    s.setKeyEvent k p = ((s.setKeyLatch k p).setV s.waitX (k.setWidth 8)).setFsm .running :=
  if_pos wakes

/-- Every other `set_key` is the write of the latch alone. -/
theorem setKeyEvent_of_not_wakes {s : State} {p : Bool} (stays : ¬ (s.fsm = .awaitingKey ∧ p = true)) (k : Nibble) :
    s.setKeyEvent k p = s.setKeyLatch k p :=
  if_neg stays

@[simp] theorem getKey_setKeyEvent (s : State) (k j : Nibble) (p : Bool) :
    (s.setKeyEvent k p).getKey j = if k = j then p else s.getKey j := by
  by_cases wakes : s.fsm = .awaitingKey ∧ p = true
  · rw [setKeyEvent_of_wakes wakes, State.setFsm_getKey, State.setV_getKey, State.getKey_setKeyLatch]
  · rw [setKeyEvent_of_not_wakes wakes, State.getKey_setKeyLatch]

@[simp] theorem setKeyEvent_pc (s : State) (k : Nibble) (p : Bool) : (s.setKeyEvent k p).pc = s.pc := by
  by_cases wakes : s.fsm = .awaitingKey ∧ p = true
  · rw [setKeyEvent_of_wakes wakes]; rfl
  · rw [setKeyEvent_of_not_wakes wakes]; rfl

theorem frame_setKeyLatch (s : State) (k : Nibble) (p : Bool) : Frame { key := true } s (s.setKeyLatch k p) :=
  ⟨fun _ _ => rfl, fun _ => rfl, fun _ => ⟨rfl, rfl⟩, fun _ _ => rfl, fun _ => rfl, fun _ => rfl, fun _ => rfl,
    nofun, fun _ => ⟨rfl, rfl⟩, fun _ => rfl, fun _ => rfl, fun _ => rfl, rfl, rfl⟩

/-- The write of `V[x]` that ends the wait adds `V[x]` to what the latch's write may change. -/
theorem frame_setKeyLatch_setV (s : State) (k x : Nibble) (p : Bool) (b : Byte) :
    Frame { v := onlyV x, key := true } s (((s.setKeyLatch k p).setV x b).setFsm .running) :=
  { frame_setKeyLatch s k p with
    v := fun r other => by
      rw [State.setFsm_getV, State.getV_setV, if_neg (beq_eq_false_iff_ne.mp other).symm, State.setKeyLatch_getV] }

/-- Settles O50: the latch and `pc` in every state, then the press that ends a wait and every other `set_key`. -/
theorem setKeyLatchesAndEndsTheWait : Obligations.SetKeyLatchesAndEndsTheWait := by
  unfold Obligations.SetKeyLatchesAndEndsTheWait
  intro k p s
  refine ⟨s.setKeyEvent k p, rfl, ?_, fun j other => ?_, setKeyEvent_pc s k p, fun wakes => ?_, fun stays => ?_⟩
  · rw [getKey_setKeyEvent, if_pos rfl]
  · rw [getKey_setKeyEvent, if_neg other.symm]
  · rw [setKeyEvent_of_wakes wakes]
    refine ⟨?_, rfl, frame_setKeyLatch_setV s k s.waitX p _⟩
    rw [State.setFsm_getV, State.getV_setV, if_pos rfl]
    exact BitVec.toNat_setWidth_of_le (by decide)
  · rw [setKeyEvent_of_not_wakes stays]
    exact ⟨rfl, frame_setKeyLatch s k p⟩

end Sys2Proof.Proofs
end

section
/-! Decoding and encoding are inverse, and which words decode to nothing (spec/30_encoding.md R63, R65 to R67, R72). The
decoder selects by the fields of a word; the fields of an encoded word are those of its instruction. -/

namespace Sys2Proof.Proofs

open Sys2Proof

/-! ## What the words of the other rows decode to -/

theorem decode_cls : decode 0x00E0 = .ok .cls := by
  decide

theorem decode_ret : decode 0x00EE = .ok .ret := by
  decide

/-- Every word `0nnn` but 00E0 and 00EE is SYS (R63, R66). -/
theorem decode_sys (nnn : Addr12) (notCls : nnn ≠ 0x0E0) (notRet : nnn ≠ 0x0EE) :
    decode (encNNN 0x0 nnn) = .ok (.sys nnn) := by
  have cls : encNNN 0x0 nnn ≠ 0x00E0 := fun same => notCls (encNNN_eq_iff.mp same).2
  have ret : encNNN 0x0 nnn ≠ 0x00EE := fun same => notRet (encNNN_eq_iff.mp same).2
  have major : decode (encNNN 0x0 nnn) = .ok (decode0 (encNNN 0x0 nnn)) := by simp [decode]
  rw [major, decode0, if_neg cls, if_neg ret, opNNN_encNNN]

theorem decode_addImm (x : Nibble) (kk : Byte) : decode (encXKK 0x7 x kk) = .ok (.addImm x kk) := by
  simp [decode]

theorem decode_orReg (x y : Nibble) : decode (encXYN 0x8 x y 0x1) = .ok (.orReg x y) := by
  rw [decode_8xyn]
  simp [decode8]

theorem decode_andReg (x y : Nibble) : decode (encXYN 0x8 x y 0x2) = .ok (.andReg x y) := by
  rw [decode_8xyn]
  simp [decode8]

theorem decode_xorReg (x y : Nibble) : decode (encXYN 0x8 x y 0x3) = .ok (.xorReg x y) := by
  rw [decode_8xyn]
  simp [decode8]

theorem decode_jpV0 (nnn : Addr12) : decode (encNNN 0xB nnn) = .ok (.jpV0 nnn) := by
  simp [decode]

theorem decode_rnd (x : Nibble) (kk : Byte) : decode (encXKK 0xC x kk) = .ok (.rnd x kk) := by
  simp [decode]

theorem decode_drw (x y n : Nibble) : decode (encXYN 0xD x y n) = .ok (.drw x y n) := by
  simp [decode]

theorem decode_skp (x : Nibble) : decode (encXKK 0xE x 0x9E) = .ok (.skp x) := by
  simp [decode, decodeE]

theorem decode_sknp (x : Nibble) : decode (encXKK 0xE x 0xA1) = .ok (.sknp x) := by
  simp [decode, decodeE]

theorem decode_ldVxK (x : Nibble) : decode (encXKK 0xF x 0x0A) = .ok (.ldVxK x) := by
  rw [decode_Fxkk]
  simp [decodeF]

theorem decode_addI (x : Nibble) : decode (encXKK 0xF x 0x1E) = .ok (.addI x) := by
  rw [decode_Fxkk]
  simp [decodeF]

theorem decode_ldF (x : Nibble) : decode (encXKK 0xF x 0x29) = .ok (.ldF x) := by
  rw [decode_Fxkk]
  simp [decodeF]

theorem decode_ldB (x : Nibble) : decode (encXKK 0xF x 0x33) = .ok (.ldB x) := by
  rw [decode_Fxkk]
  simp [decodeF]

theorem decode_ldIVx (x : Nibble) : decode (encXKK 0xF x 0x55) = .ok (.ldIVx x) := by
  rw [decode_Fxkk]
  simp [decodeF]

theorem decode_ldVxI (x : Nibble) : decode (encXKK 0xF x 0x65) = .ok (.ldVxI x) := by
  rw [decode_Fxkk]
  simp [decodeF]

/-- Settles O1: the word of each instruction decodes to it; only SYS needs well-formedness. -/
theorem decodeOfEncodeIsIdentity : Obligations.DecodeOfEncodeIsIdentity := by
  unfold Obligations.DecodeOfEncodeIsIdentity
  intro i wf
  cases i with
  | cls => exact decode_cls
  | ret => exact decode_ret
  | sys nnn =>
    obtain ⟨notCls, notRet⟩ := Bool.and_eq_true_iff.mp wf
    exact decode_sys nnn (bne_iff_ne.mp notCls) (bne_iff_ne.mp notRet)
  | jp nnn => exact decode_jp nnn
  | call nnn => exact decode_call nnn
  | seImm x kk => exact decode_seImm x kk
  | sneImm x kk => exact decode_sneImm x kk
  | seReg x y => exact decode_5xyn x y 0
  | ldImm x kk => exact decode_ldImm x kk
  | addImm x kk => exact decode_addImm x kk
  | ldReg x y => exact decode_ldReg x y
  | orReg x y => exact decode_orReg x y
  | andReg x y => exact decode_andReg x y
  | xorReg x y => exact decode_xorReg x y
  | addReg x y => exact decode_addReg x y
  | sub x y => exact decode_sub x y
  | shr x y => exact decode_shr x y
  | subn x y => exact decode_subn x y
  | shl x y => exact decode_shl x y
  | sneReg x y => exact decode_9xyn x y 0
  | ldI nnn => exact decode_ldI nnn
  | jpV0 nnn => exact decode_jpV0 nnn
  | rnd x kk => exact decode_rnd x kk
  | drw x y n => exact decode_drw x y n
  | skp x => exact decode_skp x
  | sknp x => exact decode_sknp x
  | ldVxDT x => exact decode_ldVxDT x
  | ldVxK x => exact decode_ldVxK x
  | ldDTVx x => exact decode_ldDTVx x
  | ldSTVx x => exact decode_ldSTVx x
  | addI x => exact decode_addI x
  | ldF x => exact decode_ldF x
  | ldB x => exact decode_ldB x
  | ldIVx x => exact decode_ldIVx x
  | ldVxI x => exact decode_ldVxI x

/-! ## A decoded word is the encoding of its instruction -/

/-- `i` is well-formed and `op` is its word. -/
def EncodedBy (op : Word) (i : Instr) : Prop := i.wellFormed = true ∧ encode i = op

/-- A word with major opcode `m` in format NNN. -/
theorem encNNN_of_major {op : Word} {m : Nibble} (major : (opMajor op).toNat = m.toNat) :
    encNNN m (opNNN op) = op :=
  encNNN_eq_iff.mpr ⟨(BitVec.eq_of_toNat_eq major).symm, rfl⟩

/-- A word with major opcode `m` in format XKK. -/
theorem encXKK_of_major {op : Word} {m : Nibble} (major : (opMajor op).toNat = m.toNat) :
    encXKK m (opX op) (opKK op) = op :=
  encXKK_eq_iff.mpr ⟨(BitVec.eq_of_toNat_eq major).symm, rfl, rfl⟩

/-- A word with major opcode `m` and low byte `kk`, in format XKK. -/
theorem encXKK_of_major_kk {op : Word} {m : Nibble} {kk : Byte} (major : (opMajor op).toNat = m.toNat)
    (low : (opKK op).toNat = kk.toNat) : encXKK m (opX op) kk = op :=
  encXKK_eq_iff.mpr ⟨(BitVec.eq_of_toNat_eq major).symm, rfl, (BitVec.eq_of_toNat_eq low).symm⟩

/-- A word with major opcode `m` and low nibble `n`, in format XYN. -/
theorem encXYN_of_major_n {op : Word} {m n : Nibble} (major : (opMajor op).toNat = m.toNat)
    (low : (opN op).toNat = n.toNat) : encXYN m (opX op) (opY op) n = op :=
  encXYN_eq_iff.mpr ⟨(BitVec.eq_of_toNat_eq major).symm, rfl, rfl, (BitVec.eq_of_toNat_eq low).symm⟩

theorem encodedBy_decode0 {op : Word} (major : (opMajor op).toNat = 0x0) : EncodedBy op (decode0 op) := by
  unfold decode0
  by_cases cls : op = 0x00E0
  · rw [if_pos cls]
    exact ⟨rfl, cls.symm⟩
  by_cases ret : op = 0x00EE
  · rw [if_neg cls, if_pos ret]
    exact ⟨rfl, ret.symm⟩
  rw [if_neg cls, if_neg ret]
  have word : encNNN 0x0 (opNNN op) = op := encNNN_of_major major
  have notCls : opNNN op ≠ 0x0E0 := fun same => cls (word.symm.trans (by rw [same]; rfl))
  have notRet : opNNN op ≠ 0x0EE := fun same => ret (word.symm.trans (by rw [same]; rfl))
  exact ⟨Bool.and_eq_true_iff.mpr ⟨bne_iff_ne.mpr notCls, bne_iff_ne.mpr notRet⟩, word⟩

theorem encodedBy_of_decodeXY0 {op : Word} {i j : Instr} (decoded : decodeXY0 op i = .ok j)
    (word : (opN op).toNat = 0x0 → EncodedBy op i) : EncodedBy op j := by
  rw [decodeXY0_eq] at decoded
  split at decoded
  · next low => cases decoded; exact word low
  · cases decoded

theorem encodedBy_of_decode8 {op : Word} {i : Instr} (major : (opMajor op).toNat = 0x8)
    (decoded : decode8 op = .ok i) : EncodedBy op i := by
  unfold decode8 at decoded
  split at decoded
  case h_10 => cases decoded
  all_goals
    rename_i low
    cases decoded
    exact ⟨rfl, encXYN_of_major_n major low⟩

theorem encodedBy_of_decodeE {op : Word} {i : Instr} (major : (opMajor op).toNat = 0xE)
    (decoded : decodeE op = .ok i) : EncodedBy op i := by
  unfold decodeE at decoded
  split at decoded
  case h_3 => cases decoded
  all_goals
    rename_i low
    cases decoded
    exact ⟨rfl, encXKK_of_major_kk major low⟩

theorem encodedBy_of_decodeF {op : Word} {i : Instr} (major : (opMajor op).toNat = 0xF)
    (decoded : decodeF op = .ok i) : EncodedBy op i := by
  unfold decodeF at decoded
  split at decoded
  case h_10 => cases decoded
  all_goals
    rename_i low
    cases decoded
    exact ⟨rfl, encXKK_of_major_kk major low⟩

/-- A major opcode that is none of 0 to E is F. -/
theorem major_eq_F {op : Word} (other : 0xE < (opMajor op).toNat) : (opMajor op).toNat = 0xF := by
  have := (opMajor op).isLt
  omega

theorem encodedBy_of_decode {op : Word} {i : Instr} (decoded : decode op = .ok i) : EncodedBy op i := by
  unfold decode at decoded
  split at decoded
  case h_1 major => cases decoded; exact encodedBy_decode0 major
  case h_6 major => exact encodedBy_of_decodeXY0 decoded fun low => ⟨rfl, encXYN_of_major_n major low⟩
  case h_9 major => exact encodedBy_of_decode8 major decoded
  case h_10 major => exact encodedBy_of_decodeXY0 decoded fun low => ⟨rfl, encXYN_of_major_n major low⟩
  case h_14 major => cases decoded; exact ⟨rfl, encXYN_of_major_n major rfl⟩
  case h_15 major => exact encodedBy_of_decodeE major decoded
  case h_16 =>
    simp only [imp_false] at *
    exact encodedBy_of_decodeF (major_eq_F (by omega)) decoded
  case h_2 major | h_3 major | h_11 major | h_12 major => cases decoded; exact ⟨rfl, encNNN_of_major major⟩
  all_goals
    rename_i major
    cases decoded
    exact ⟨rfl, encXKK_of_major major⟩

/-- Settles O2: the fields the decoder selects by are the fixed bits of the encoding, the others its operands. -/
theorem encodeOfDecodeIsIdentity : Obligations.EncodeOfDecodeIsIdentity := by
  unfold Obligations.EncodeOfDecodeIsIdentity
  intro op i decoded
  exact encodedBy_of_decode decoded

/-! ## The words that decode to nothing (R67) -/

/-- A word is decoded, or refused with InvalidOpcode of itself (R63). -/
theorem decode_ok_or_error (op : Word) : (∃ i, decode op = .ok i) ∨ decode op = .error (.invalidOpcode op) := by
  rw [decode_eq_decodeByTable, decodeByTable]
  split
  · exact .inl ⟨_, rfl⟩
  · exact .inr rfl

theorem decodeXY0_eq_error_iff (op : Word) (i : Instr) :
    decodeXY0 op i = .error (.invalidOpcode op) ↔ opN op ≠ 0 := by
  unfold decodeXY0
  by_cases zero : opN op = 0 <;> simp [zero]

theorem decode8_eq_error_iff (op : Word) : decode8 op = .error (.invalidOpcode op) ↔
    opN op ∈ ([0x8, 0x9, 0xA, 0xB, 0xC, 0xD, 0xF] : List Nibble) := by
  have bound := (opN op).isLt
  unfold decode8
  split
  case h_10 =>
    simp only [imp_false] at *
    simp
    bv_omega
  all_goals
    simp
    bv_omega

theorem decodeE_eq_error_iff (op : Word) : decodeE op = .error (.invalidOpcode op) ↔
    opKK op ∉ ([0x9E, 0xA1] : List Byte) := by
  unfold decodeE
  split
  case h_3 =>
    simp only [imp_false] at *
    simp
    bv_omega
  all_goals
    simp
    bv_omega

theorem decodeF_eq_error_iff (op : Word) : decodeF op = .error (.invalidOpcode op) ↔
    opKK op ∉ ([0x07, 0x0A, 0x15, 0x18, 0x1E, 0x29, 0x33, 0x55, 0x65] : List Byte) := by
  unfold decodeF
  split
  case h_10 =>
    simp only [imp_false] at *
    simp
    bv_omega
  all_goals
    simp
    bv_omega

theorem decode_eq_error_iff (op : Word) : decode op = .error (.invalidOpcode op) ↔
    ((opMajor op = 0x5 ∨ opMajor op = 0x9) ∧ opN op ≠ 0) ∨
    (opMajor op = 0x8 ∧ opN op ∈ ([0x8, 0x9, 0xA, 0xB, 0xC, 0xD, 0xF] : List Nibble)) ∨
    (opMajor op = 0xE ∧ opKK op ∉ ([0x9E, 0xA1] : List Byte)) ∨
    (opMajor op = 0xF ∧ opKK op ∉ ([0x07, 0x0A, 0x15, 0x18, 0x1E, 0x29, 0x33, 0x55, 0x65] : List Byte)) := by
  rw [← decode8_eq_error_iff, ← decodeE_eq_error_iff, ← decodeF_eq_error_iff]
  simp only [← BitVec.toNat_inj (x := opMajor op)]
  unfold decode
  split
  case h_6 major => simp [major, decodeXY0_eq_error_iff]
  case h_10 major => simp [major, decodeXY0_eq_error_iff]
  case h_16 =>
    simp only [imp_false] at *
    have major : (opMajor op).toNat = 0xF := major_eq_F (by omega)
    simp [major]
  all_goals
    rename_i major
    simp [major]

/-- Settles O4: each major opcode refuses the words its own selection leaves out. -/
theorem undecodableWordsAreTheEnumeratedOnes : Obligations.UndecodableWordsAreTheEnumeratedOnes := by
  unfold Obligations.UndecodableWordsAreTheEnumeratedOnes
  intro op
  exact ⟨decode_eq_error_iff op, decode_ok_or_error op⟩

/-- Settles O5: each pair of bytes is a closed word. -/
theorem sampleWordsDecodeAsWritten : Obligations.SampleWordsDecodeAsWritten := by
  unfold Obligations.SampleWordsDecodeAsWritten
  refine ⟨?_, ?_, ?_, ?_, ?_, ?_, ?_, ?_, ?_, ?_, ?_⟩ <;> decide

end Sys2Proof.Proofs
end

section
/-! What a completed cycle of each instruction may change, said once (spec/10_state.md R11, R12, R27;
40_execution_cycle.md R87): its frame, the `fsm` it leaves, the flag it writes. -/

namespace Sys2Proof.Proofs

open Sys2Proof Sys2Proof.Machine

/-! ## Frames of the remaining writes -/

/-- A block of bytes written after Advance. -/
theorem frame_beginCycle_writeBytes (s : State) (a n : Nat) (bs : List Byte) (length : bs.length = n) :
    Frame { mem := bytesAt a n } s (s.beginCycle.setMem (Memory.writeBytes s.fontTable s.mem a bs)) :=
  { frame_beginCycle_setPc s (s.pc + 2) with
    mem := fun c outside => by
      subst length
      exact (State.byteAt_writeBytes s.beginCycle bs a c).trans (if_neg (decide_eq_false_iff_not.mp outside)) }

/-- `V[0]` to `V[x]` written after Advance. -/
theorem frame_beginCycle_setVs (s : State) (x : Nibble) (bs : List Byte) (length : bs.length = x.toNat + 1) :
    Frame { v := upToV x } s (s.beginCycle.setVs 0 bs) := by
  have fits : 0 + bs.length ≤ 16 := by have := x.isLt; omega
  have onlyV := State.setVs_eq bs s.beginCycle 0
  rw [onlyV]
  exact
    { frame_beginCycle_setPc s (s.pc + 2) with
      v := fun r outside => by
        have above : ¬ (0 ≤ r.toNat ∧ r.toNat < 0 + bs.length) := by
          have := decide_eq_false_iff_not.mp outside
          omega
        exact (State.setVs_getV bs s.beginCycle 0 r fits).trans (if_neg above) }

/-! ## The frame of every instruction -/

/-- What a completed cycle of `i` from `s` may write besides `pc` and `fsm`. -/
def writes (i : Instr) (s : State) : Writes :=
  match i with
  | .cls => { disp := true, drawFlag := true }
  | .ret | .call _ => { stack := true }
  | .sys _ | .jp _ | .jpV0 _ | .seImm _ _ | .sneImm _ _ | .seReg _ _ | .sneReg _ _ | .skp _ | .sknp _ => {}
  | .ldImm x _ | .addImm x _ | .ldReg x _ | .orReg x _ | .andReg x _ | .xorReg x _ | .ldVxDT x => { v := onlyV x }
  | .addReg x _ | .sub x _ | .shr x _ | .subn x _ | .shl x _ => { v := onlyVAndFlag x }
  | .rnd x _ => { v := onlyV x, draws := true }
  | .drw _ _ _ => { v := onlyV 15, disp := true, drawFlag := true }
  | .ldVxK _ => { waitX := true }
  | .ldDTVx _ => { dt := true }
  | .ldSTVx _ => { st := true }
  | .ldI _ | .addI _ | .ldF _ => { i := true }
  | .ldB _ => { mem := bytesAt (s.effAddr 0) 3 }
  | .ldIVx x => { mem := bytesAt (s.effAddr 0) (x.toNat + 1) }
  | .ldVxI x => { v := upToV x }

theorem frame_of_completes {i : Instr} {s t : State} (h : Completes i s t) : Frame (writes i s) s t := by
  cases i
  case sys => exact h.elim
  case cls => cases h; exact { frame_beginCycle_setPc s (s.pc + 2) with disp := nofun, drawFlag := nofun }
  case ret => obtain ⟨_, -, a, -, rfl⟩ := h; exact { frame_beginCycle_setPc s a with stack := nofun }
  case call nnn => obtain ⟨_, rfl⟩ := h; exact { frame_beginCycle_setPc s (addrWord nnn) with stack := nofun }
  case rnd x kk => cases h; exact { frame_beginCycle_setV s x (Config.rnd s.draws &&& kk) with draws := nofun }
  case drw x y n =>
    obtain ⟨-, rfl⟩ := h
    exact { frame_beginCycle_setV s 15 (flagByte (Completes.drawn s x y n).2) with disp := nofun, drawFlag := nofun }
  case ldVxK => cases h; exact { frame_beginCycle_setPc s (s.pc + 2) with waitX := nofun }
  case ldDTVx => cases h; exact frame_beginCycle_setDT s _
  case ldSTVx => cases h; exact frame_beginCycle_setST s _
  case ldB => obtain ⟨-, -, rfl⟩ := h; exact frame_beginCycle_writeBytes s _ 3 _ rfl
  case ldIVx x => obtain ⟨-, -, rfl⟩ := h; exact frame_beginCycle_writeBytes s _ _ _ (State.firstVs_length s x)
  case ldVxI x => obtain ⟨-, rfl⟩ := h; exact frame_beginCycle_setVs s x _ (by simp)
  case ldI | addI | ldF => cases h; exact frame_beginCycle_setI s _
  case ldImm | addImm | ldReg | orReg | andReg | xorReg | ldVxDT => cases h; exact frame_beginCycle_setV s _ _
  case addReg | sub | shr | subn | shl => cases h; exact frame_beginCycle_setVFlag s _ _ _
  all_goals cases h; exact frame_beginCycle_setPc s _

/-- A cycle takes a fault from the state before it, or completes within its instruction's frame. -/
theorem enterFault_or_frame {i : Instr} {s t : State} (h : exec i s = .next t) :
    (∃ e, t = s.enterFault e) ∨ Frame (writes i s) s t := by
  rcases exec_cases i s t h with ⟨e, fault, -⟩ | completed
  · exact .inl ⟨e, fault⟩
  · exact .inr (frame_of_completes completed)

theorem writes_v_of_mayWrite_eq_false {i : Instr} (s : State) {r : Nibble} (h : i.mayWrite r = false) :
    (writes i s).v r = false := by
  obtain ⟨notDestination, -⟩ := Bool.or_eq_false_iff.mp h
  cases i
  case addReg | sub | shr | subn | shl | drw => exact h
  all_goals exact notDestination

theorem writes_i_iff (i : Instr) (s : State) :
    (writes i s).i = true ↔ (∃ nnn, i = .ldI nnn) ∨ (∃ x, i = .addI x) ∨ ∃ x, i = .ldF x := by
  cases i <;> simp [writes]

theorem writes_stack_iff (i : Instr) (s : State) : (writes i s).stack = true ↔ (∃ nnn, i = .call nnn) ∨ i = .ret := by
  cases i <;> simp [writes]

theorem writes_disp_iff (i : Instr) (s : State) : (writes i s).disp = true ↔ i = .cls ∨ ∃ x y n, i = .drw x y n := by
  cases i <;> simp [writes]

theorem writes_fault (i : Instr) (s : State) : (writes i s).fault = false := by
  cases i <;> rfl

/-! ## The flag -/

theorem flagByte_eq_zero_or_one (c : Bool) : flagByte c = 0x00 ∨ flagByte c = 0x01 := by
  cases c
  · exact .inl rfl
  · exact .inr rfl

theorem flag_of_completes {i : Instr} {s t : State} (defines : i.definesFlag = true) (h : Completes i s t) :
    ∃ c, t.getV 15 = flagByte c := by
  cases i
  case addReg | sub | shr | subn | shl =>
    cases h
    exact ⟨_, by rw [State.setVFlag_getV, if_pos rfl]⟩
  case drw =>
    obtain ⟨-, rfl⟩ := h
    exact ⟨_, by rw [State.setDrawFlag_getV, State.getV_setV, if_pos rfl]⟩
  all_goals cases defines

/-- Settles O19: a fault writes none of these; a completed cycle stays in its frame. -/
theorem onlyNamedRegistersChange : Obligations.OnlyNamedRegistersChange := by
  unfold Obligations.OnlyNamedRegistersChange
  intro i s t h
  rcases exec_cases i s t h with ⟨e, rfl, -⟩ | completed
  · exact ⟨fun _ _ => rfl, fun _ running => absurd rfl running, fun changed => absurd rfl changed,
      fun changed => (changed.elim (absurd rfl) (absurd rfl)), fun changed => absurd rfl changed⟩
  have frame := frame_of_completes completed
  refine ⟨fun r other => ?_, fun defines _ => ?_, fun changed => ?_, fun changed => ?_, fun changed => ?_⟩
  · exact frame.v r (writes_v_of_mayWrite_eq_false s other)
  · obtain ⟨c, flag⟩ := flag_of_completes defines completed
    rw [flag]
    exact flagByte_eq_zero_or_one c
  · exact (writes_i_iff i s).mp (Bool.of_not_eq_false (mt frame.i changed))
  · exact (writes_stack_iff i s).mp (Bool.of_not_eq_false fun keeps =>
      changed.elim (absurd (frame.stack keeps).1) (absurd (frame.stack keeps).2))
  · exact (writes_disp_iff i s).mp (Bool.of_not_eq_false (mt frame.disp changed))

/-! ## The `fsm` a cycle leaves, and the faults it takes -/

theorem fsm_of_completes {i : Instr} {s t : State} (h : Completes i s t) :
    (t.fsm = .awaitingKey ∧ ∃ x, i = .ldVxK x) ∨ (t.fsm = .running ∧ ¬ ∃ x, i = .ldVxK x) := by
  cases i
  case sys => exact h.elim
  case ldVxK x => cases h; exact .inl ⟨rfl, x, rfl⟩
  case ret => obtain ⟨_, -, _, -, rfl⟩ := h; exact .inr ⟨rfl, by simp⟩
  case call | drw => obtain ⟨_, rfl⟩ := h; exact .inr ⟨rfl, by simp⟩
  case ldB | ldIVx => obtain ⟨-, -, rfl⟩ := h; exact .inr ⟨rfl, by simp⟩
  case ldVxI =>
    obtain ⟨-, rfl⟩ := h
    rw [State.setVs_eq]
    exact .inr ⟨rfl, by simp⟩
  all_goals cases h; exact .inr ⟨rfl, by simp⟩

/-- Settles O17: a cycle that does not end `Halted` is a completed one. -/
theorem completedCycleLeavesRunningOrAwaitingKey : Obligations.CompletedCycleLeavesRunningOrAwaitingKey := by
  unfold Obligations.CompletedCycleLeavesRunningOrAwaitingKey
  intro i s t h live
  rcases exec_cases i s t h with ⟨e, rfl, -⟩ | completed
  · exact absurd rfl live
  · rcases fsm_of_completes completed with ⟨fsm, waits⟩ | ⟨fsm, goesOn⟩
    · simp [fsm, waits]
    · simp [fsm, goesOn]

theorem cause_ne_none (e : CycleFault) : e.cause ≠ .none := by
  cases e <;> nofun

theorem exec_sys (nnn : Addr12) (s : State) :
    exec (.sys nnn) s = .next (s.enterFault (.invalidOpcode (encode (.sys nnn)))) :=
  rfl

/-- Settles O15: the latched cause is that of a fault the instruction raises, and SYS raises InvalidOpcode always. -/
theorem otherFaultsComeFromTheirInstructionsOnly : Obligations.OtherFaultsComeFromTheirInstructionsOnly := by
  unfold Obligations.OtherFaultsComeFromTheirInstructionsOnly
  intro i s t h halted
  obtain ⟨e, rfl, raised⟩ := raises_of_halted h halted
  rw [State.enterFault_faultCause]
  refine ⟨cause_ne_none e, ?_⟩
  rcases raised with ⟨rfl, ⟨_, rfl⟩, -⟩ | ⟨rfl, rfl, -⟩ | ⟨nnn, rfl, rfl⟩ | ⟨a, rfl, accesses⟩
  · exact ⟨nofun, by simp [CycleFault.cause]⟩
  · exact ⟨nofun, by simp [CycleFault.cause]⟩
  · exact ⟨nofun, by simp [CycleFault.cause]⟩
  · refine ⟨fun _ => accesses, nofun, ?_⟩
    rintro ⟨nnn, rfl⟩
    simp at accesses

/-! ## One step -/

theorem runCycle_answers (s : State) (f : State → Except CycleFault State) : ∃ t, runCycle s f = .next t := by
  rcases runCycle_cases s f with ⟨t, -, runs⟩ | ⟨e, -, runs⟩
  · exact ⟨t, runs⟩
  · exact ⟨_, runs⟩

/-- Every instruction is one cycle with an Execute step of its own. -/
theorem exec_answers (i : Instr) (s : State) : ∃ t, exec i s = .next t := by
  cases i
  all_goals
    rw [exec]
    exact runCycle_answers s _

/-- Between `Idle` and `Running` a `cpu_tick` makes no difference (D6). -/
theorem cpuTick_of_ticks {s : State} (ticks : s.fsm = .idle ∨ s.fsm = .running) : cpuTick s = cycle s := by
  rcases ticks with fsm | fsm <;> simp only [cpuTick, fsm]

/-- In `AwaitingKey` and `Halted` a `cpu_tick` changes nothing (R90). -/
theorem cpuTick_of_rests {s : State} (rests : s.fsm = .awaitingKey ∨ s.fsm = .halted) : cpuTick s = .next s := by
  rcases rests with fsm | fsm <;> simp only [cpuTick, fsm]

theorem ticks_or_rests (s : State) :
    (s.fsm = .idle ∨ s.fsm = .running) ∨ (s.fsm = .awaitingKey ∨ s.fsm = .halted) := by
  cases s.fsm <;> simp

theorem cycle_of_fetch_error {s : State} {e : CycleFault} (fetch : s.fetch = .error e) :
    cycle s = .next (s.enterFault e) := by
  simp only [cycle, fetch]

theorem cycle_of_decode_ok {s : State} {op : Word} {i : Instr} (fetch : s.fetch = .ok op)
    (decoded : decode op = .ok i) : cycle s = exec i s := by
  simp only [cycle, fetch, decoded]

theorem cycle_of_decode_error {s : State} {op w : Word} (fetch : s.fetch = .ok op)
    (decoded : decode op = .error (.invalidOpcode w)) : cycle s = .next (s.enterFault (.invalidOpcode w)) := by
  simp only [cycle, fetch, decoded]

theorem cycle_answers (s : State) : ∃ t, cycle s = .next t := by
  cases fetch : s.fetch with
  | error e => exact ⟨_, cycle_of_fetch_error fetch⟩
  | ok op =>
    rcases decode_ok_or_error op with ⟨i, decoded⟩ | refused
    · rw [cycle_of_decode_ok fetch decoded]
      exact exec_answers i s
    · exact ⟨_, cycle_of_decode_error fetch refused⟩

theorem cpuTick_answers (s : State) : ∃ t, cpuTick s = .next t := by
  rcases ticks_or_rests s with ticks | rests
  · rw [cpuTick_of_ticks ticks]
    exact cycle_answers s
  · exact ⟨s, cpuTick_of_rests rests⟩

theorem perform_answers (e : Event) (s : State) : ∃ t, perform e s = .next t := by
  cases e
  case cpuTick => exact cpuTick_answers s
  all_goals exact ⟨_, rfl⟩

theorem step_of_no_event {s : State} (noEvent : s.events = []) : step s = cpuTick s := by
  simp only [step, takeEvent, noEvent]

theorem step_of_event {s : State} {e : Event} {rest : List Event} (next : s.events = e :: rest) :
    step s = perform e (s.setEvents rest) := by
  simp only [step, takeEvent, next]

theorem step_answers (s : State) : ∃ t, step s = .next t := by
  cases next : s.events with
  | nil => rw [step_of_no_event next]; exact cpuTick_answers s
  | cons e rest => rw [step_of_event next]; exact perform_answers e _

/-- Settles O13: a fault is a next state too, in `exec` and before it. -/
theorem everyStepAnswersANextState : Obligations.EveryStepAnswersANextState := by
  unfold Obligations.EveryStepAnswersANextState
  exact ⟨exec_answers, step_answers⟩

/-- A cycle from `s` that ends `Halted` is fault entry from `s`. -/
theorem enterFault_of_cycle_halted {s t : State} (h : cycle s = .next t) (halted : t.fsm = .halted) :
    ∃ e, t = s.enterFault e := by
  rcases cycle_cases s t h with fault | ⟨i, -, executed⟩
  · exact fault
  · obtain ⟨e, fault, -⟩ := raises_of_halted executed halted
    exact ⟨e, fault⟩

/-- A `cpu_tick` that runs a cycle answers what the cycle's end says. -/
theorem response_cpuTick_of_cycle {s t : State} (ticks : s.fsm = .idle ∨ s.fsm = .running) (h : cycle s = .next t) :
    response .cpuTick s = cycleResponse t := by
  rcases ticks with fsm | fsm <;> simp only [response, cpuTickResponse, fsm, h]

/-- Settles O12: a completed cycle never halts, so a halted one is fault entry, in `exec` and before it. -/
theorem faultedCycleChangesOnlyFaultFields : Obligations.FaultedCycleChangesOnlyFaultFields := by
  unfold Obligations.FaultedCycleChangesOnlyFaultFields
  refine ⟨fun i s t h halted => ?_, fun s t ticks h => ?_⟩
  · obtain ⟨e, fault, -⟩ := raises_of_halted h halted
    exact ⟨e, fault⟩
  · rw [cpuTick_of_ticks ticks] at h
    rw [response_cpuTick_of_cycle ticks h]
    exact ⟨fun halted => ⟨enterFault_of_cycle_halted h halted, if_pos halted⟩, fun live => if_neg live⟩

/-- A `cpu_tick` runs the instruction the two bytes at `pc` decode to (R50, R81). -/
theorem cpuTick_of_decodeBytes {s : State} {i : Instr} (ticks : s.fsm = .idle ∨ s.fsm = .running)
    (inMemory : s.pc.toNat ≤ 0xFFE)
    (decoded : decodeBytes (s.byteAt s.pc.toNat) (s.byteAt (s.pc.toNat + 1)) = .ok i) : cpuTick s = exec i s := by
  rw [cpuTick_of_ticks ticks]
  exact cycle_of_decode_ok (State.fetch_ok s inMemory) decoded

/-- Settles O9: fetch answers the two bytes at `pc`, and the cycle runs what they decode to. -/
theorem stepRunsTheDecodedInstruction : Obligations.StepRunsTheDecodedInstruction := by
  unfold Obligations.StepRunsTheDecodedInstruction
  refine ⟨fun s i noEvent ticks inMemory decoded => ?_, fun s rest i next ticks inMemory decoded => ?_,
    fun s e rest next => step_of_event next⟩
  · rw [step_of_no_event noEvent]
    exact cpuTick_of_decodeBytes ticks inMemory decoded
  · rw [step_of_event next]
    exact cpuTick_of_decodeBytes (s := s.setEvents rest) ticks inMemory decoded

/-- Settles O10: `State.fetch_error` names the first byte that does not exist;
the decoder's refusal is taken as it is. -/
theorem fetchAndDecodeFaultsAreTaken : Obligations.FetchAndDecodeFaultsAreTaken := by
  unfold Obligations.FetchAndDecodeFaultsAreTaken
  intro s ticks
  rw [cpuTick_of_ticks ticks]
  refine ⟨fun above => ?_, fun last => ?_, fun op inMemory word refused => ?_⟩
  · rw [cycle_of_fetch_error (State.fetch_error s (by omega)), max_eq_left (by omega)]
  · rw [cycle_of_fetch_error (State.fetch_error s (by omega)), max_eq_right (by omega)]
  · subst word
    exact cycle_of_decode_error (State.fetch_ok s inMemory) refused

end Sys2Proof.Proofs
end

section
/-! The invariant of the machine (spec/10_state.md R32): it holds at reset, every step keeps it, and so no schedule of
events changes a byte below 0x200 (R43). `FONT_TABLE` is changed by no step (R3). -/

namespace Sys2Proof.Proofs

open Sys2Proof Sys2Proof.Machine

/-! ## What a completed cycle does to each clause -/

/-- A completed cycle writes one block inside RAM, empty for every instruction but LD B and LD [I]. -/
theorem mem_of_completes {i : Instr} {s t : State} (h : Completes i s t) :
    ∃ a bs, 0x200 ≤ a ∧ a + bs.length ≤ 0x1000 ∧ t.mem = Memory.writeBytes s.fontTable s.mem a bs := by
  have unchanged (same : t.mem = s.mem) :
      ∃ a bs, 0x200 ≤ a ∧ a + bs.length ≤ 0x1000 ∧ t.mem = Memory.writeBytes s.fontTable s.mem a bs :=
    ⟨0x200, [], le_rfl, by simp, same⟩
  cases i
  case sys => exact h.elim
  case ldB x => obtain ⟨low, high, rfl⟩ := h; exact ⟨_, bcdDigits (s.getV x), low, high, rfl⟩
  case ldIVx x =>
    obtain ⟨low, high, rfl⟩ := h
    exact ⟨_, _, low, by rw [State.firstVs_length]; exact high, rfl⟩
  case ldVxI => obtain ⟨-, rfl⟩ := h; exact unchanged (by rw [State.setVs_eq]; rfl)
  case ret => obtain ⟨_, -, _, -, rfl⟩ := h; exact unchanged rfl
  case call | drw => obtain ⟨_, rfl⟩ := h; exact unchanged rfl
  all_goals cases h; exact unchanged rfl

/-- Advance does not wrap where a cycle was fetched (R83). -/
theorem toNat_advance {a : Word} (fetched : a.toNat ≤ 0xFFE) : (a + 2).toNat = a.toNat + 2 := by
  bv_omega

/-- Nor does a skip after it. -/
theorem toNat_skip {a : Word} (fetched : a.toNat ≤ 0xFFE) : (a + 2 + 2).toNat = a.toNat + 4 := by
  bv_omega

@[simp] theorem toNat_byteWord (b : Byte) : (byteWord b).toNat = b.toNat :=
  BitVec.toNat_setWidth_of_le (by decide)

/-- The sum of JP V0 fits 16 bits (R108, D11). -/
theorem toNat_jumpTarget (s : State) (nnn : Addr12) : (s.jumpTarget nnn).toNat = nnn.toNat + (s.getV 0).toNat := by
  rw [State.jumpTarget, BitVec.toNat_add, toNat_addrWord, toNat_byteWord]
  have := nnn.isLt
  have := (s.getV 0).isLt
  omega

/-- R32 (e): the highest `pc` a cycle leaves is 0xFFF + 0xFF, that of JP V0. -/
theorem pc_of_completes {i : Instr} {s t : State} (inv : Inv s) (fetched : s.pc.toNat ≤ 0xFFE)
    (h : Completes i s t) : t.pc.toNat ≤ 0x10FE := by
  have advanced : (s.pc + 2).toNat ≤ 0x10FE := by rw [toNat_advance fetched]; omega
  have skipped (c : Bool) : (if c then s.pc + 2 + 2 else s.pc + 2).toNat ≤ 0x10FE := by
    cases c
    · exact advanced
    · rw [if_pos rfl, toNat_skip fetched]; omega
  cases i
  case sys => exact h.elim
  case jp nnn =>
    cases h
    rw [State.setPc_pc, toNat_addrWord]
    have := nnn.isLt
    omega
  case call nnn =>
    obtain ⟨_, rfl⟩ := h
    rw [toNat_addrWord]
    have := nnn.isLt
    omega
  case jpV0 nnn =>
    cases h
    rw [State.setPc_pc, toNat_jumpTarget]
    have := nnn.isLt
    have := (s.getV 0).isLt
    omega
  case ret =>
    obtain ⟨k, depth, a, top, rfl⟩ := h
    have hk : k.val < 16 := by have := s.sp.isLt; omega
    have entry := inv.stack ⟨k.val, hk⟩ (by simp only; omega)
    rw [top hk]
    exact entry.2.trans (by decide)
  case seImm | sneImm | seReg | sneReg | skp | sknp => cases h; exact skipped _
  case drw => obtain ⟨-, rfl⟩ := h; exact advanced
  case ldB | ldIVx => obtain ⟨-, -, rfl⟩ := h; exact advanced
  case ldVxI => obtain ⟨-, rfl⟩ := h; rw [State.setVs_eq]; exact advanced
  all_goals cases h; exact advanced

/-- R32 (d): CALL pushes an advanced `pc`, RET drops the top, nothing else touches the stack. -/
theorem stack_of_completes {i : Instr} {s t : State} (inv : Inv s) (fetched : s.pc.toNat ≤ 0xFFE)
    (h : Completes i s t) (k : Fin 16) (live : k.val < t.sp.val) :
    0x0002 ≤ t.stack[k.val].toNat ∧ t.stack[k.val].toNat ≤ 0x1000 := by
  have frame := frame_of_completes h
  cases i
  case call =>
    obtain ⟨room, rfl⟩ := h
    by_cases top : s.sp.val = k.val
    · simp only [top, Vector.getElem_set_self, toNat_advance fetched]
      omega
    · simp only [Vector.getElem_set_ne room k.isLt top]
      exact inv.stack k (by simp only at live; omega)
  case ret =>
    obtain ⟨depth, less, _, -, rfl⟩ := h
    exact inv.stack k (by simp only at live; omega)
  all_goals
    obtain ⟨stack, sp⟩ := frame.stack rfl
    simp only [stack]
    exact inv.stack k (sp ▸ live)

/-! ## Every step keeps the invariant -/

theorem inv_of_completes {i : Instr} {s t : State} (inv : Inv s) (live : s.fsm ≠ .halted)
    (fetched : s.pc.toNat ≤ 0xFFE) (h : Completes i s t) : Inv t := by
  obtain ⟨a, bs, low, high, mem⟩ := mem_of_completes h
  have frame := frame_of_completes h
  obtain ⟨sameCause, -⟩ := frame.fault (writes_fault i s)
  exact
    { memWf := by rw [frame.fontTable, mem]; exact Memory.wf_writeBytes _ bs _ a inv.memWf
      memRam := by rw [mem]; exact Memory.onlyRam_writeBytes _ bs _ a low high inv.memRam
      cause := iff_of_false (by rw [sameCause]; exact mt inv.cause.mp live) (hostFrame_of_completes h).notHalted
      stack := stack_of_completes inv fetched h
      pc := pc_of_completes inv fetched h }

/-- Taking a fault latches a cause and halts (R176). -/
theorem inv_enterFault {s : State} (inv : Inv s) (e : CycleFault) : Inv (s.enterFault e) :=
  { inv with cause := iff_of_true (cause_ne_none e) rfl }

theorem inv_of_cpuTick {s t : State} (inv : Inv s) (h : cpuTick s = .next t) : Inv t := by
  rcases cpuTick_cases s t h with ⟨rfl, -⟩ | ⟨ran, ticks⟩
  · exact inv
  have live : s.fsm ≠ .halted := by rcases ticks with fsm | fsm <;> simp [fsm]
  rcases cycle_cases s t ran with ⟨e, rfl⟩ | ⟨i, fetched, executed⟩
  · exact inv_enterFault inv e
  · rcases exec_cases i s t executed with ⟨e, rfl, -⟩ | completed
    · exact inv_enterFault inv e
    · exact inv_of_completes inv live fetched completed

/-- A key event resumes from `AwaitingKey`, where no fault is latched. -/
theorem inv_setKeyEvent {s : State} (inv : Inv s) (k : Nibble) (p : Bool) : Inv (s.setKeyEvent k p) := by
  by_cases wakes : s.fsm = .awaitingKey ∧ p = true
  · have noFault : ¬ s.faultCause ≠ .none := mt inv.cause.mp (by simp [wakes.1])
    rw [setKeyEvent_of_wakes wakes]
    exact { inv with cause := iff_of_false noFault nofun }
  · rw [setKeyEvent_of_not_wakes wakes]
    exact { inv with }

theorem loadRom_of_fits {s : State} {bytes : List Byte} (fits : bytes.length ≤ 0xE00) :
    s.loadRom bytes = s.setMem (Memory.writeBytes s.fontTable s.mem 0x200 bytes) :=
  if_pos (decide_eq_true fits)

theorem loadRom_of_not_fits {s : State} {bytes : List Byte} (tooLong : 0xE00 < bytes.length) : s.loadRom bytes = s :=
  if_neg (by simpa [romFits] using tooLong)

/-- A payload that fits ends at or below 0xFFF (R203). -/
theorem inv_loadRom {s : State} (inv : Inv s) (bytes : List Byte) : Inv (s.loadRom bytes) := by
  by_cases fits : bytes.length ≤ 0xE00
  · rw [loadRom_of_fits fits]
    exact
      { inv with
        memWf := Memory.wf_writeBytes _ bytes _ _ inv.memWf
        memRam := Memory.onlyRam_writeBytes _ bytes _ _ le_rfl (by omega) inv.memRam }
  · rw [loadRom_of_not_fits (by omega)]
    exact inv

theorem inv_resetWith (f : FontTable) : Inv (State.resetWith f) where
  memWf := rfl
  memRam := rfl
  cause := iff_of_false (· rfl) nofun
  stack := fun k live => absurd live (Nat.not_lt_zero k.val)
  pc := (by decide : (0x0200 : Word).toNat ≤ 0x10FE)

/-- Settles O56: `State.reset` is the reset state with the default font. -/
theorem invariantHoldsAtReset : Obligations.InvariantHoldsAtReset := by
  unfold Obligations.InvariantHoldsAtReset
  exact ⟨inv_resetWith defaultFont, inv_resetWith⟩

theorem inv_of_perform {e : Event} {s t : State} (inv : Inv s) (h : perform e s = .next t) : Inv t := by
  cases e
  case cpuTick => exact inv_of_cpuTick inv h
  case setKey k p => cases h; exact inv_setKeyEvent inv k p
  case load bytes => cases h; exact inv_loadRom inv bytes
  case reset => cases h; exact { inv_resetWith s.fontTable with }
  case timerTick | ackDraw => cases h; exact { inv with }

/-- The host's schedule is no part of the invariant. -/
theorem inv_setEvents {s : State} (inv : Inv s) (es : List Event) : Inv (s.setEvents es) :=
  { inv with }

/-- One step is one event (R4): a `cpu_tick`, or the oldest scheduled one on the state with the schedule shortened. -/
theorem step_cases {s t : State} (h : step s = .next t) : ∃ e es, perform e (s.setEvents es) = .next t := by
  cases next : s.events with
  | nil =>
    have same : s.setEvents [] = s := by rw [← next]; rfl
    rw [step_of_no_event next] at h
    exact ⟨.cpuTick, [], by rw [same]; exact h⟩
  | cons e rest =>
    rw [step_of_event next] at h
    exact ⟨e, rest, h⟩

theorem inv_of_step {s t : State} (inv : Inv s) (h : step s = .next t) : Inv t := by
  obtain ⟨e, es, performed⟩ := step_cases h
  exact inv_of_perform (inv_setEvents inv es) performed

/-- Settles O57: one lemma per event. -/
theorem everyStepKeepsTheInvariant : Obligations.EveryStepKeepsTheInvariant := by
  unfold Obligations.EveryStepKeepsTheInvariant
  intro s t inv h
  exact inv_of_step inv h

/-! ## The font, and the bytes below 0x200 -/

theorem fontTable_of_cpuTick {s t : State} (h : cpuTick s = .next t) : t.fontTable = s.fontTable := by
  rcases cpuTick_cases s t h with ⟨rfl, -⟩ | ⟨ran, -⟩
  · rfl
  rcases cycle_cases s t ran with ⟨e, rfl⟩ | ⟨i, -, executed⟩
  · rfl
  · rcases enterFault_or_frame executed with ⟨e, rfl⟩ | frame
    · rfl
    · exact frame.fontTable

theorem fontTable_of_perform {e : Event} {s t : State} (h : perform e s = .next t) : t.fontTable = s.fontTable := by
  cases e
  case cpuTick => exact fontTable_of_cpuTick h
  case setKey k p =>
    cases h
    by_cases wakes : s.fsm = .awaitingKey ∧ p = true
    · rw [setKeyEvent_of_wakes wakes]; rfl
    · rw [setKeyEvent_of_not_wakes wakes]; rfl
  case load bytes =>
    cases h
    by_cases fits : bytes.length ≤ 0xE00
    · rw [loadRom_of_fits fits]; rfl
    · rw [loadRom_of_not_fits (by omega)]
  case reset | timerTick | ackDraw => cases h; rfl

theorem fontTable_of_step {s t : State} (h : step s = .next t) : t.fontTable = s.fontTable := by
  obtain ⟨e, es, performed⟩ := step_cases h
  exact fontTable_of_perform (s := s.setEvents es) performed

/-- What `reset` leaves at every address, whatever memory held (R29, R30). -/
theorem doReset_byteAt (s : State) (a : Nat) : s.doReset.byteAt a = resetByte s.fontTable a :=
  rfl

/-- Settles O59: no event writes the parameter, and the reset bytes of the font region are the parameter's. -/
theorem fontTableIsAFixedParameter : Obligations.FontTableIsAFixedParameter := by
  unfold Obligations.FontTableIsAFixedParameter
  refine ⟨fun s t h => fontTable_of_step h, fun s => ⟨s.doReset, rfl, rfl, fun k => ?_⟩⟩
  rw [doReset_byteAt, resetByte_font]

theorem run_succ_of_step {s u : State} (stepped : step s = .next u) (k : Nat) :
    Host.Core.run Sys2Proof.core (k + 1) s = Host.Core.run Sys2Proof.core k u := by
  have coreStep : Sys2Proof.core.step s = .next u := stepped
  simp only [Host.Core.run, coreStep]

/-- Along every run the invariant and the font stay. -/
theorem inv_and_fontTable_of_run (k : Nat) {s t : State} (inv : Inv s)
    (h : Host.Core.run Sys2Proof.core k s = .next t) : Inv t ∧ t.fontTable = s.fontTable := by
  induction k generalizing s with
  | zero => cases h; exact ⟨inv, rfl⟩
  | succ k ih =>
    obtain ⟨u, stepped⟩ := step_answers s
    rw [run_succ_of_step stepped] at h
    obtain ⟨invT, font⟩ := ih (inv_of_step inv stepped) h
    exact ⟨invT, font.trans (fontTable_of_step stepped)⟩

/-- Settles O58: where only RAM is listed, every byte below 0x200 is the reset byte of the unchanged font. -/
theorem lowMemoryNeverChanges : Obligations.LowMemoryNeverChanges := by
  unfold Obligations.LowMemoryNeverChanges
  intro k s t inv h a low
  obtain ⟨invT, font⟩ := inv_and_fontTable_of_run k inv h
  rw [State.byteAt_low t a invT.memRam low, font, State.resetWith_byteAt]

end Sys2Proof.Proofs
end

section
/-! The block accesses (spec/43_index_memory.md R143 to R146): LD B and LD [I] store a block at `I` when all of it lies
in RAM, LD Vx, [I] reads one when all of it lies in the address space; otherwise the first address that does not is
the fault's (R175), and nothing else changes (D7). -/

namespace Sys2Proof.Proofs

open Sys2Proof Sys2Proof.Machine

theorem effAddr_eq (s : State) (k : Nat) : s.effAddr k = s.effAddr 0 + k :=
  rfl

/-! ## A cycle that stores the block `bs` -/

section StoreCycle

variable {i : Instr} {s : State} {bs : List Byte} {n : Nat}

/-- The block is stored, and those bytes are all the cycle changes. -/
theorem storeCycle_completes (runs : exec i s = runCycle s fun t => t.storeBytes (t.effAddr 0) bs)
    (length : bs.length = n + 1) (low : 0x200 ≤ s.effAddr 0) (high : s.effAddr n ≤ 0xFFF) :
    ∃ t, exec i s = .next t ∧ (∀ k < n + 1, t.byteAt (s.effAddr k) = bs.getD k 0) ∧ t.pc = s.pc + 2 ∧
      t.fsm = .running ∧ Frame { mem := bytesAt (s.effAddr 0) (n + 1) } s t := by
  have fits : s.effAddr 0 + bs.length ≤ 0x1000 := by
    rw [effAddr_eq] at high
    omega
  refine ⟨_, ?_, fun k hk => ?_, rfl, rfl, frame_beginCycle_writeBytes s (s.effAddr 0) (n + 1) bs length⟩
  · rw [runs]
    exact runCycle_ok _ _ _ (State.storeBytes_ok bs s.beginCycle _ low fits)
  · refine (State.byteAt_writeBytes s.beginCycle bs (s.effAddr 0) (s.effAddr k)).trans ?_
    rw [effAddr_eq s k, if_pos (by omega), Nat.add_sub_cancel_left]

/-- The first address of the block lies outside RAM. -/
theorem storeCycle_faults_first (runs : exec i s = runCycle s fun t => t.storeBytes (t.effAddr 0) bs)
    (length : bs.length = n + 1) (outside : s.effAddr 0 < 0x200 ∨ 0xFFF < s.effAddr 0) :
    exec i s = .next (s.enterFault (.illegalAccess (s.effAddr 0))) := by
  obtain ⟨b, bs, rfl⟩ := List.exists_cons_of_length_eq_add_one length
  have notRam : ¬ (0x200 ≤ s.beginCycle.effAddr 0 ∧ s.beginCycle.effAddr 0 ≤ 0xFFF) := by
    rw [State.beginCycle_effAddr]
    omega
  rw [runs]
  exact runCycle_error _ _ _ (State.storeBytes_error_first b bs s.beginCycle _ notRam)

/-- The block starts in RAM and passes 0xFFF. -/
theorem storeCycle_faults_top (runs : exec i s = runCycle s fun t => t.storeBytes (t.effAddr 0) bs)
    (length : bs.length = n + 1) (low : 0x200 ≤ s.effAddr 0) (start : s.effAddr 0 ≤ 0xFFF)
    (past : 0xFFF < s.effAddr n) : exec i s = .next (s.enterFault (.illegalAccess 0x1000)) := by
  have tooLong : 0x1000 < s.beginCycle.effAddr 0 + bs.length := by
    rw [effAddr_eq] at past
    rw [State.beginCycle_effAddr]
    omega
  rw [runs]
  exact runCycle_error _ _ _ (State.storeBytes_error_top bs s.beginCycle _ low (Nat.le_succ_of_le start) tooLong)

end StoreCycle

theorem exec_ldB (x : Nibble) (s : State) :
    exec (.ldB x) s = runCycle s fun t => t.storeBytes (t.effAddr 0) (bcdDigits (s.getV x)) :=
  rfl

theorem exec_ldIVx (x : Nibble) (s : State) :
    exec (.ldIVx x) s = runCycle s fun t => t.storeBytes (t.effAddr 0) (s.firstVs x) :=
  rfl

/-- The digits of a byte are below 10, so nothing of them is cut off (R143). -/
theorem bcdDigits_toNat (b : Byte) :
    ((bcdDigits b).getD 0 0).toNat = b.toNat / 100 ∧ ((bcdDigits b).getD 1 0).toNat = b.toNat / 10 % 10 ∧
      ((bcdDigits b).getD 2 0).toNat = b.toNat % 10 := by
  have := b.isLt
  simp only [bcdDigits, List.getD_cons_zero, List.getD_cons_succ, BitVec.toNat_ofNat]
  omega

/-- Settles O39: the block is the three digits. -/
theorem storeBcdWritesThreeDigitsOrFaults : Obligations.StoreBcdWritesThreeDigitsOrFaults := by
  unfold Obligations.StoreBcdWritesThreeDigitsOrFaults
  intro x s
  have length : (bcdDigits (s.getV x)).length = 2 + 1 := rfl
  refine ⟨decode_ldB x, fun ⟨low, high⟩ => ?_, storeCycle_faults_first (exec_ldB x s) length,
    fun ⟨low, start, past⟩ => storeCycle_faults_top (exec_ldB x s) length low start past⟩
  obtain ⟨t, runs, stored, keeps⟩ := storeCycle_completes (exec_ldB x s) length low high
  obtain ⟨hundreds, tens, ones⟩ := bcdDigits_toNat (s.getV x)
  refine ⟨t, runs, ?_, ?_, ?_, keeps⟩
  · rw [stored 0 (by decide), hundreds]
  · rw [stored 1 (by decide), tens]
  · rw [stored 2 (by decide), ones]

/-- Settles O40: the block is `V[0]` to `V[x]`. -/
theorem storeRegistersWritesBlockOrFaults : Obligations.StoreRegistersWritesBlockOrFaults := by
  unfold Obligations.StoreRegistersWritesBlockOrFaults
  intro x s
  have length := State.firstVs_length s x
  refine ⟨decode_ldIVx x, fun ⟨low, high⟩ => ?_, storeCycle_faults_first (exec_ldIVx x s) length,
    fun ⟨low, start, past⟩ => storeCycle_faults_top (exec_ldIVx x s) length low start past⟩
  obtain ⟨t, runs, stored, keeps⟩ := storeCycle_completes (exec_ldIVx x s) length low high
  refine ⟨t, runs, fun r inBlock => ?_, keeps⟩
  rw [stored r.toNat (by omega), State.firstVs_getD s x r.toNat inBlock, BitVec.ofNat_toNat, BitVec.setWidth_eq]

/-! ## LD Vx, [I]: the block it reads is `spriteRows`, the bytes from `I` upward -/

theorem spriteRows_length (s : State) (n : Nat) : (spriteRows s n).length = n := by
  simp [spriteRows]

theorem spriteRows_getD (s : State) {n k : Nat} (h : k < n) : (spriteRows s n).getD k 0 = s.byteAt (s.effAddr k) := by
  simp [spriteRows, h]

theorem exec_ldVxI_of_readable (x : Nibble) (s : State) (h : s.effAddr x.toNat ≤ 0xFFF) :
    exec (.ldVxI x) s = .next (s.beginCycle.setVs 0 (spriteRows s (x.toNat + 1))) := by
  have fits : x.toNat + 1 = 0 ∨ s.beginCycle.effAddr 0 + (x.toNat + 1) ≤ 0x1000 := by
    rw [effAddr_eq] at h
    rw [State.beginCycle_effAddr]
    omega
  rw [exec, execLdVxI]
  exact runCycle_ok _ _ _ (by rw [State.readBytes_ok s.beginCycle _ _ fits]; rfl)

theorem exec_ldVxI_of_not_readable (x : Nibble) (s : State) (h : 0xFFF < s.effAddr x.toNat) :
    exec (.ldVxI x) s = .next (s.enterFault (.illegalAccess (max (s.effAddr 0) 0x1000))) := by
  have past : 0x1000 < s.beginCycle.effAddr 0 + (x.toNat + 1) := by
    rw [effAddr_eq] at h
    rw [State.beginCycle_effAddr]
    omega
  rw [exec, execLdVxI]
  exact runCycle_error _ _ _ (by rw [State.readBytes_error s.beginCycle _ _ (Nat.succ_ne_zero _) past]; rfl)

/-- Settles O41: all bytes are read before the first register is written. -/
theorem loadRegistersReadsBlockOrFaults : Obligations.LoadRegistersReadsBlockOrFaults := by
  unfold Obligations.LoadRegistersReadsBlockOrFaults
  intro x s
  refine ⟨decode_ldVxI x, fun readable => ?_, exec_ldVxI_of_not_readable x s⟩
  have length := spriteRows_length s (x.toNat + 1)
  refine ⟨_, exec_ldVxI_of_readable x s readable, fun r inBlock => ?_, ?_, ?_, frame_beginCycle_setVs s x _ length⟩
  · have := x.isLt
    rw [State.setVs_getV _ _ _ _ (by omega), if_pos (by omega), Nat.sub_zero, spriteRows_getD s (by omega)]
  · rw [State.setVs_eq]; rfl
  · rw [State.setVs_eq]; rfl

end Sys2Proof.Proofs
end

section
/-! DRW (spec/44_display.md R153 to R155): the closed form of the blit through the whole cycle, and that a second draw
of the same sprite at the same place undoes the first. -/

namespace Sys2Proof.Proofs

open Sys2Proof Sys2Proof.Machine

/-- All `n` bytes of the sprite at `I` exist. -/
def SpriteReadable (n : Nibble) (s : State) : Prop := n = 0 ∨ s.effAddr (n.toNat - 1) ≤ 0xFFF

/-- The state a completed DRW leaves. -/
def afterDraw (x y n : Nibble) (s : State) : State :=
  ((s.beginCycle.setDisp (Completes.drawn s x y n).1).setV 15 (flagByte (Completes.drawn s x y n).2)).setDrawFlag true

theorem exec_drw_of_readable {x y n : Nibble} {s : State} (h : SpriteReadable n s) :
    exec (.drw x y n) s = .next (afterDraw x y n s) := by
  have fits : n.toNat = 0 ∨ s.beginCycle.effAddr 0 + n.toNat ≤ 0x1000 := by
    rw [State.beginCycle_effAddr]
    rcases h with rfl | h
    · exact .inl rfl
    · rw [effAddr_eq] at h
      omega
  rw [exec, execDrw]
  exact runCycle_ok _ _ _ (by rw [State.readBytes_ok s.beginCycle _ _ fits]; rfl)

theorem exec_drw_of_not_readable {x y n : Nibble} {s : State} (rows : n ≠ 0) (h : 0xFFF < s.effAddr (n.toNat - 1)) :
    exec (.drw x y n) s = .next (s.enterFault (.illegalAccess (max (s.effAddr 0) 0x1000))) := by
  have nonzero : n.toNat ≠ 0 := fun zero => rows (BitVec.eq_of_toNat_eq zero)
  have past : 0x1000 < s.beginCycle.effAddr 0 + n.toNat := by
    rw [effAddr_eq] at h
    rw [State.beginCycle_effAddr]
    omega
  rw [exec, execDrw]
  exact runCycle_error _ _ _ (by rw [State.readBytes_error s.beginCycle _ _ nonzero past]; rfl)

/-- A sprite is no higher than the display, so no row is drawn over another. -/
theorem spriteRows_length_le (s : State) (n : Nibble) : (spriteRows s n.toNat).length ≤ 32 := by
  rw [spriteRows_length]
  have := n.isLt
  omega

/-- What a completed DRW does to the pixels, and its collision (R153). -/
theorem drawn_blit (x y n : Nibble) (s : State) :
    Blit s.disp (spriteBit (spriteRows s n.toNat) (s.getV x).toNat (s.getV y).toNat) (Completes.drawn s x y n) :=
  drawRows_blit s.disp (s.getV x).toNat (s.getV y).toNat _ (spriteRows_length_le s n)

theorem dispGet_afterDraw (x y n : Nibble) (s : State) {px py : Nat} (hx : px < 64) (hy : py < 32) :
    dispGet (afterDraw x y n s).disp px py =
      (dispGet s.disp px py ^^ spriteBit (spriteRows s n.toNat) (s.getV x).toNat (s.getV y).toNat px py) :=
  (drawn_blit x y n s).1 px hx py hy

theorem afterDraw_flag (x y n : Nibble) (s : State) :
    (afterDraw x y n s).getV 15 = flagByte (Completes.drawn s x y n).2 := by
  rw [afterDraw, State.setDrawFlag_getV, State.getV_setV, if_pos rfl]

@[simp] theorem flagByte_eq_one_iff (c : Bool) : flagByte c = 0x01 ↔ c = true := by
  cases c <;> decide

/-- The flag is 1 exactly where the sprite covers a pixel that was on. -/
theorem afterDraw_flag_eq_one_iff (x y n : Nibble) (s : State) :
    (afterDraw x y n s).getV 15 = 0x01 ↔ ∃ px < 64, ∃ py < 32, dispGet s.disp px py = true ∧
      spriteBit (spriteRows s n.toNat) (s.getV x).toNat (s.getV y).toNat px py = true := by
  rw [afterDraw_flag, flagByte_eq_one_iff]
  exact (drawn_blit x y n s).2

theorem frame_afterDraw (x y n : Nibble) (s : State) :
    Frame { v := onlyV 15, disp := true, drawFlag := true } s (afterDraw x y n s) :=
  { frame_beginCycle_setV s 15 (flagByte (Completes.drawn s x y n).2) with disp := nofun, drawFlag := nofun }

/-- Settles O43: a pixel that was on went off exactly where the sprite has a 1. -/
theorem drawXorsSpriteOntoDisplay : Obligations.DrawXorsSpriteOntoDisplay := by
  unfold Obligations.DrawXorsSpriteOntoDisplay
  intro x y n s
  refine ⟨decode_drw x y n, fun readable => ?_, fun ⟨rows, past⟩ => exec_drw_of_not_readable rows past⟩
  refine ⟨_, exec_drw_of_readable readable, fun px hx py hy => dispGet_afterDraw x y n s hx hy, ?_, ?_, rfl, rfl, rfl,
    frame_afterDraw x y n s⟩
  · rw [afterDraw_flag]
    exact flagByte_eq_zero_or_one _
  · rw [afterDraw_flag_eq_one_iff]
    constructor
    · rintro ⟨px, hx, py, hy, on, covered⟩
      exact ⟨px, hx, py, hy, on, by rw [dispGet_afterDraw x y n s hx hy, on, covered]; rfl⟩
    · rintro ⟨px, hx, py, hy, on, off⟩
      rw [dispGet_afterDraw x y n s hx hy, on] at off
      exact ⟨px, hx, py, hy, on, by simpa using off⟩

/-! ## Drawing twice (R155 b) -/

/-- A DRW that ends `Running` completed. -/
theorem eq_afterDraw_of_running {x y n : Nibble} {s t : State} (h : exec (.drw x y n) s = .next t)
    (running : t.fsm = .running) : SpriteReadable n s ∧ t = afterDraw x y n s := by
  by_cases readable : SpriteReadable n s
  · rw [exec_drw_of_readable readable] at h
    cases h
    exact ⟨readable, rfl⟩
  · obtain ⟨rows, past⟩ := not_or.mp readable
    rw [exec_drw_of_not_readable rows (Nat.lt_of_not_le past)] at h
    cases h
    cases running

theorem exists_getLsbD_of_ne_zero {b : Byte} (nonzero : b ≠ 0) : ∃ j < 8, b.getLsbD j = true := by
  by_contra allClear
  push Not at allClear
  exact nonzero (BitVec.eq_of_getLsbD_eq fun j hj => by simp [allClear j hj])

/-- A sprite has a 1 at some pixel exactly when one of its bytes is not 0. -/
theorem exists_spriteBit_iff {rows : List Byte} (fewRows : rows.length ≤ 32) (x y : Nat) :
    (∃ px < 64, ∃ py < 32, spriteBit rows x y px py = true) ↔ ∃ b ∈ rows, b ≠ 0 := by
  constructor
  · rintro ⟨px, -, py, -, lit⟩
    obtain ⟨-, bit⟩ := Bool.and_eq_true_iff.mp lit
    by_cases inSprite : (py + 32 - y % 32) % 32 < rows.length
    · rw [List.getD_eq_getElem _ _ inSprite] at bit
      exact ⟨_, List.getElem_mem inSprite, fun zero => by simp [zero] at bit⟩
    · rw [List.getD_eq_default _ _ (Nat.le_of_not_lt inSprite)] at bit
      simp at bit
  · rintro ⟨b, mem, nonzero⟩
    obtain ⟨r, hr, rfl⟩ := List.mem_iff_getElem.mp mem
    obtain ⟨j, hj, bit⟩ := exists_getLsbD_of_ne_zero nonzero
    refine ⟨(x + (7 - j)) % 64, Nat.mod_lt _ (by decide), (y + r) % 32, Nat.mod_lt _ (by decide), ?_⟩
    have column : ((x + (7 - j)) % 64 + 64 - x % 64) % 64 = 7 - j := by omega
    have row : ((y + r) % 32 + 32 - y % 32) % 32 = r := by omega
    have back : 7 - (7 - j) = j := by omega
    simp only [spriteBit, column, row, back, List.getD_eq_getElem _ _ hr, bit, Bool.and_true]
    exact decide_eq_true (by omega)

/-- Settles O44: the second draw reads the sprite and the place of the first, and XOR with the same bit twice is no
change; onto an all-off display the first draw leaves on exactly the sprite's pixels. -/
theorem drawingTwiceRestoresTheDisplay : Obligations.DrawingTwiceRestoresTheDisplay := by
  unfold Obligations.DrawingTwiceRestoresTheDisplay
  intro x y n s t u first running sameX sameY second
  obtain ⟨readable, rfl⟩ := eq_afterDraw_of_running first running
  rw [exec_drw_of_readable (s := afterDraw x y n s) readable] at second
  cases second
  have sameRows : spriteRows (afterDraw x y n s) n.toNat = spriteRows s n.toNat := rfl
  refine ⟨rfl, disp_ext _ _ fun px py hx hy => ?_, fun allOff => ⟨?_, ?_⟩⟩
  · rw [dispGet_afterDraw x y n _ hx hy, dispGet_afterDraw x y n s hx hy, sameRows, sameX, sameY, Bool.xor_assoc,
      Bool.xor_self, Bool.xor_false]
  · have noHit : (afterDraw x y n s).getV 15 ≠ 0x01 := by
      rw [ne_eq, afterDraw_flag_eq_one_iff, allOff]
      simp
    rw [afterDraw_flag] at noHit ⊢
    exact (flagByte_eq_zero_or_one _).resolve_right noHit
  · rw [afterDraw_flag_eq_one_iff, sameRows, sameX, sameY]
    rw [← exists_spriteBit_iff (spriteRows_length_le s n) (s.getV x).toNat (s.getV y).toNat]
    constructor
    · rintro ⟨px, hx, py, hy, -, lit⟩
      exact ⟨px, hx, py, hy, lit⟩
    · rintro ⟨px, hx, py, hy, lit⟩
      refine ⟨px, hx, py, hy, ?_, lit⟩
      rw [dispGet_afterDraw x y n s hx hy, allOff, dispGet_dispClear, lit]
      rfl

end Sys2Proof.Proofs
end

section
/-! The stack (spec/41_control_flow.md R100, R101) and the control flow that faults or computes its target: SYS
(40_execution_cycle.md R89), RET (R104), JP V0 (R108). -/

namespace Sys2Proof.Proofs

open Sys2Proof Sys2Proof.Machine

/-! ## Push and pop -/

/-- Below depth 16 the value goes to the slot at `sp`. -/
theorem push_eq (s : State) (a : Word) (room : s.sp.val < 16) :
    s.push a = .ok { s with stack := s.stack.set s.sp.val a room, sp := ⟨s.sp.val + 1, by omega⟩ } :=
  dif_pos room

/-- Above depth 0 the value comes from the slot below `sp`, which is kept (log 26). -/
theorem pop_eq (s : State) (nonempty : 0 < s.sp.val) :
    s.pop = .ok (s.stack[s.sp.val - 1]'(by omega), { s with sp := ⟨s.sp.val - 1, by omega⟩ }) :=
  if_neg (by omega)

/-- Settles O8: a push below depth 16 writes the slot that the pop after it reads. -/
theorem stackIsLastInFirstOut : Obligations.StackIsLastInFirstOut := by
  unfold Obligations.StackIsLastInFirstOut
  intro s a
  refine ⟨State.push_error s a, State.pop_error s, fun room => ?_, fun nonempty => ?_⟩
  · refine ⟨_, push_eq s a room, rfl, Vector.getElem_set_self .., fun k other => ?_, rfl, ?_⟩
    · exact Vector.getElem_set_ne room k.isLt other.symm
    · refine ⟨{ s with stack := s.stack.set s.sp.val a room }, ?_, rfl⟩
      rw [pop_eq _ (Nat.succ_pos _)]
      simp
  · exact ⟨_, pop_eq s nonempty, rfl, rfl⟩

/-! ## SYS, RET and JP V0 -/

/-- The word of SYS is its address, zero-extended: its major opcode is 0. -/
theorem encode_sys (nnn : Addr12) : encode (.sys nnn) = nnn.setWidth 16 :=
  (BitVec.setWidth_eq_append (by decide)).symm

/-- Settles O20: the cycle is fault entry with the word of the instruction. -/
theorem sysTakesInvalidOpcode : Obligations.SysTakesInvalidOpcode := by
  unfold Obligations.SysTakesInvalidOpcode
  intro nnn s
  refine ⟨decode_sys nnn, _, exec_sys nnn s, ?_⟩
  rw [encode_sys]
  rfl

theorem exec_ret_of_sp_pos (s : State) (nonempty : 0 < s.sp.val) : exec .ret s = .next { s.beginCycle with
    sp := ⟨s.sp.val - 1, by omega⟩, pc := s.stack[s.sp.val - 1]'(by omega) } := by
  rw [exec, execRet]
  exact runCycle_ok _ _ _ (by rw [pop_eq s.beginCycle nonempty]; rfl)

/-- Settles O23: above depth 0 the cycle is a pop into `pc`; at depth 0 it is fault entry. -/
theorem returnPopsIntoPc : Obligations.ReturnPopsIntoPc := by
  unfold Obligations.ReturnPopsIntoPc
  refine ⟨decode_ret, fun s => ⟨fun nonempty => ?_, exec_ret_of_sp_eq_zero s⟩⟩
  exact ⟨_, exec_ret_of_sp_pos s nonempty, rfl, rfl, rfl, rfl,
    { frame_beginCycle_setPc s (s.stack[s.sp.val - 1]'(by omega)) with stack := nofun }⟩

theorem exec_jpV0 (nnn : Addr12) (s : State) : exec (.jpV0 nnn) s = .next (s.beginCycle.setPc (s.jumpTarget nnn)) :=
  rfl

/-- Settles O24: the 16-bit sum of a 12-bit and an 8-bit value does not wrap. -/
theorem jumpV0AddsWithoutMask : Obligations.JumpV0AddsWithoutMask := by
  unfold Obligations.JumpV0AddsWithoutMask
  intro nnn s
  have sum := toNat_jumpTarget s nnn
  refine ⟨decode_jpV0 nnn, _, exec_jpV0 nnn s, sum, ?_, rfl, frame_beginCycle_setPc s _⟩
  rw [State.setPc_pc, sum]
  have := nnn.isLt
  have := (s.getV 0).isLt
  omega

end Sys2Proof.Proofs
end

section
/-! Sums, logic and RND without a flag (spec/42_register_alu.md R123, R125 to R127, R132), and the arithmetic of `I`
(43_index_memory.md R141, R142). Each completes in every state with one write. -/

namespace Sys2Proof.Proofs

open Sys2Proof Sys2Proof.Machine

/-! ## Registers -/

theorem exec_addImm (x : Nibble) (kk : Byte) (s : State) :
    exec (.addImm x kk) s = .next (s.beginCycle.setV x (s.getV x + kk)) :=
  rfl

/-- Settles O29: one register write, of the sum. -/
theorem addImmediateWrapsWithoutFlag : Obligations.AddImmediateWrapsWithoutFlag := by
  unfold Obligations.AddImmediateWrapsWithoutFlag
  intro x kk s
  obtain ⟨t, runs, sum, keeps⟩ := setV_completes (exec_addImm x kk s)
  refine ⟨decode_addImm x kk, t, runs, ?_, keeps⟩
  rw [sum, BitVec.toNat_add]

theorem exec_orReg (x y : Nibble) (s : State) :
    exec (.orReg x y) s = .next (s.beginCycle.setV x (s.getV x ||| s.getV y)) :=
  rfl

theorem exec_andReg (x y : Nibble) (s : State) :
    exec (.andReg x y) s = .next (s.beginCycle.setV x (s.getV x &&& s.getV y)) :=
  rfl

theorem exec_xorReg (x y : Nibble) (s : State) :
    exec (.xorReg x y) s = .next (s.beginCycle.setV x (s.getV x ^^^ s.getV y)) :=
  rfl

/-- A cycle that ends in one register write, bit by bit. -/
theorem setV_completes_bitwise {i : Instr} {s : State} {x : Nibble} {b : Byte} {bit : Nat → Bool}
    (runs : exec i s = .next (s.beginCycle.setV x b)) (bits : ∀ k, b.getLsbD k = bit k) :
    ∃ t, exec i s = .next t ∧ t.pc = s.pc + 2 ∧ t.fsm = .running ∧ Frame { v := onlyV x } s t ∧
      ∀ k < 8, (t.getV x).getLsbD k = bit k := by
  obtain ⟨t, answers, result, pc, fsm, frame⟩ := setV_completes runs
  refine ⟨t, answers, pc, fsm, frame, fun k _ => ?_⟩
  rw [result, bits]

/-- Settles O30: one register write each, of the bitwise result. -/
theorem logicIsBitwiseWithoutFlag : Obligations.LogicIsBitwiseWithoutFlag := by
  unfold Obligations.LogicIsBitwiseWithoutFlag
  intro x y s
  refine ⟨decode_orReg x y, decode_andReg x y, decode_xorReg x y, ?_, ?_, ?_⟩
  · exact setV_completes_bitwise (exec_orReg x y s) fun _ => BitVec.getLsbD_or
  · exact setV_completes_bitwise (exec_andReg x y s) fun _ => BitVec.getLsbD_and
  · exact setV_completes_bitwise (exec_xorReg x y s) fun _ => BitVec.getLsbD_xor

theorem exec_rnd (x : Nibble) (kk : Byte) (s : State) :
    exec (.rnd x kk) s = .next (s.beginCycle.setV x (Config.rnd s.draws &&& kk)).nextDraw :=
  rfl

/-- Settles O36: one register write, of the next draw AND `kk`, and the draw is counted. -/
theorem randomIsFreeDrawAndImmediate : Obligations.RandomIsFreeDrawAndImmediate := by
  unfold Obligations.RandomIsFreeDrawAndImmediate
  intro x kk s
  refine ⟨decode_rnd x kk, _, exec_rnd x kk s, fun k _ => ?_, rfl, rfl, rfl,
    { frame_beginCycle_setV s x (Config.rnd s.draws &&& kk) with draws := nofun }⟩
  rw [State.nextDraw_getV, State.getV_setV, if_pos rfl, BitVec.getLsbD_and]

/-! ## The index register -/

/-- The address of a digit's glyph does not wrap (R142). -/
theorem toNat_fontAddr (b : Byte) : (fontAddr b).toNat = 0x50 + 5 * b.toNat := by
  have := b.isLt
  have digit := toNat_byteWord b
  rw [fontAddr]
  bv_omega

theorem exec_addI (x : Nibble) (s : State) :
    exec (.addI x) s = .next (s.beginCycle.setI (indexPlus s.i (s.getV x))) :=
  rfl

theorem exec_ldF (x : Nibble) (s : State) : exec (.ldF x) s = .next (s.beginCycle.setI (fontAddr (s.getV x))) :=
  rfl

/-- Settles O38: one write of `I` each. -/
theorem indexArithmeticKeepsFlag : Obligations.IndexArithmeticKeepsFlag := by
  unfold Obligations.IndexArithmeticKeepsFlag
  intro x s
  obtain ⟨t, runsAdd, sum, keepsAdd⟩ := setI_completes (exec_addI x s)
  obtain ⟨u, runsFont, font, keepsFont⟩ := setI_completes (exec_ldF x s)
  refine ⟨decode_addI x, decode_ldF x, ⟨t, runsAdd, ?_, keepsAdd⟩, u, runsFont, ?_, keepsFont⟩
  · rw [sum, indexPlus, BitVec.toNat_add, toNat_byteWord]
  · rw [font, toNat_fontAddr]

end Sys2Proof.Proofs
end

section
/-! CLS (spec/44_display.md R152), the key skips and the key wait (45_timers_keypad.md R160, R161, R163, R164). -/

namespace Sys2Proof.Proofs

open Sys2Proof Sys2Proof.Machine

theorem exec_cls (s : State) : exec .cls s = .next ((s.beginCycle.setDisp dispClear).setDrawFlag true) :=
  rfl

/-- Settles O42: one write of the display. -/
theorem clearTurnsEveryPixelOff : Obligations.ClearTurnsEveryPixelOff := by
  unfold Obligations.ClearTurnsEveryPixelOff
  refine ⟨decode_cls, fun s => ⟨_, exec_cls s, dispGet_dispClear, rfl, rfl, rfl, ?_⟩⟩
  exact { frame_beginCycle_setPc s (s.pc + 2) with disp := nofun, drawFlag := nofun }

/-- The selected key is the value modulo 16 (R163, D18). -/
theorem eq_keyIndex {k : Nibble} {b : Byte} (low : k.toNat = b.toNat % 16) : keyIndex b = k := by
  apply BitVec.eq_of_toNat_eq
  rw [low]
  simp [keyIndex]

/-- Settles O45: SKP skips on the latch of the selected key, SKNP on its negation. -/
theorem skipOnKey : Obligations.SkipOnKey := by
  unfold Obligations.SkipOnKey
  intro x k s low
  obtain rfl := eq_keyIndex low
  refine ⟨decode_skp x, decode_sknp x, ?_, ?_⟩
  · exact skip_completes (c := s.getKey (keyIndex (s.getV x))) rfl id id
  · exact skip_completes (c := !s.getKey (keyIndex (s.getV x))) rfl (by simp) (by simp)

theorem exec_ldVxK (x : Nibble) (s : State) :
    exec (.ldVxK x) s = .next ((s.beginCycle.setWaitX x).setFsm .awaitingKey) :=
  rfl

/-- Settles O48: the cycle latches `x` and waits; then a tick rests, a release is the write of its latch, and a
press is what `setKeyLatchesAndEndsTheWait` says of `AwaitingKey`. -/
theorem waitForKeyEndsOnAnyPress : Obligations.WaitForKeyEndsOnAnyPress := by
  unfold Obligations.WaitForKeyEndsOnAnyPress
  intro x s
  refine ⟨decode_ldVxK x, _, exec_ldVxK x s, rfl, rfl, rfl, ?_, ?_, fun k => ?_, fun k => ?_⟩
  · exact { frame_beginCycle_setPc s (s.pc + 2) with waitX := nofun }
  · exact cpuTick_of_rests (s := (s.beginCycle.setWaitX x).setFsm .awaitingKey) (.inl rfl)
  · exact congrArg Host.Outcome.next (setKeyEvent_of_not_wakes (by simp) k)
  · obtain ⟨u, performed, pressed, others, pc, wakes, -⟩ :=
      setKeyLatchesAndEndsTheWait k true ((s.beginCycle.setWaitX x).setFsm .awaitingKey)
    obtain ⟨value, running, frame⟩ := wakes ⟨rfl, rfl⟩
    exact ⟨u, performed, value, pressed, others, running, pc, frame⟩

end Sys2Proof.Proofs
end

section
/-! The host's events but `set_key` (spec/60_exceptions.md R177, R185, R191; 70_reset_and_hazards.md R200, R201, R203),
and what every event does where no cycle runs (40_execution_cycle.md R90). -/

namespace Sys2Proof.Proofs

open Sys2Proof Sys2Proof.Machine

/-! ## `timer_tick` and `ack_draw` -/

/-- Counting down stops at 0 (R185), as subtraction of natural numbers does. -/
theorem toNat_timerDec (b : Byte) : (timerDec b).toNat = b.toNat - 1 := by
  unfold timerDec
  split <;> bv_omega

theorem frame_timerTick (s : State) : Frame { dt := true, st := true } s s.timerTick :=
  ⟨fun _ _ => rfl, fun _ => rfl, fun _ => ⟨rfl, rfl⟩, fun _ _ => rfl, fun _ => rfl, nofun, nofun,
    fun _ => rfl, fun _ => ⟨rfl, rfl⟩, fun _ => rfl, fun _ => rfl, fun _ => rfl, rfl, rfl⟩

theorem frame_ackDraw (s : State) : Frame { drawFlag := true } s s.ackDraw :=
  ⟨fun _ _ => rfl, fun _ => rfl, fun _ => ⟨rfl, rfl⟩, fun _ _ => rfl, fun _ => rfl, fun _ => rfl, fun _ => rfl,
    fun _ => rfl, fun _ => ⟨rfl, rfl⟩, nofun, fun _ => rfl, fun _ => rfl, rfl, rfl⟩

/-- Settles O49: neither event looks at `fsm`. -/
theorem timerTickAndAckDrawEffects : Obligations.TimerTickAndAckDrawEffects := by
  unfold Obligations.TimerTickAndAckDrawEffects
  intro s
  constructor
  · exact ⟨s.timerTick, rfl, toNat_timerDec s.dt, toNat_timerDec s.st, rfl, rfl, frame_timerTick s⟩
  · exact ⟨s.ackDraw, rfl, rfl, rfl, rfl, frame_ackDraw s⟩

/-! ## `load` -/

theorem response_load_of_fits {s : State} {bytes : List Byte} (fits : bytes.length ≤ 0xE00) :
    response (.load bytes) s = .ok :=
  if_pos (decide_eq_true fits)

theorem response_load_of_not_fits {s : State} {bytes : List Byte} (tooLong : 0xE00 < bytes.length) :
    response (.load bytes) s = .invalidRom :=
  if_neg (by simpa [romFits] using tooLong)

/-- A block of bytes written outside a cycle. -/
theorem frame_writeBytes (s : State) (a : Nat) (bs : List Byte) :
    Frame { mem := bytesAt a bs.length } s (s.setMem (Memory.writeBytes s.fontTable s.mem a bs)) :=
  ⟨fun _ _ => rfl, fun _ => rfl, fun _ => ⟨rfl, rfl⟩,
    fun c outside => (State.byteAt_writeBytes s bs a c).trans (if_neg (decide_eq_false_iff_not.mp outside)),
    fun _ => rfl, fun _ => rfl, fun _ => rfl, fun _ => rfl, fun _ => ⟨rfl, rfl⟩, fun _ => rfl, fun _ => rfl,
    fun _ => rfl, rfl, rfl⟩

/-- Settles O51: a payload that fits is one block write at 0x200. -/
theorem loadWritesPayloadOrNothing : Obligations.LoadWritesPayloadOrNothing := by
  unfold Obligations.LoadWritesPayloadOrNothing
  intro bytes s
  refine ⟨fun fits => ?_, fun tooLong => ?_⟩
  · refine ⟨_, congrArg Host.Outcome.next (loadRom_of_fits fits), response_load_of_fits fits, fun k inPayload => ?_,
      rfl, rfl, frame_writeBytes s 0x200 bytes⟩
    rw [State.byteAt_writeBytes, if_pos (by omega), Nat.add_sub_cancel_left, List.getD_eq_getElem _ _ inPayload,
      List.getElem?_eq_getElem inPayload]
  · exact ⟨congrArg Host.Outcome.next (loadRom_of_not_fits tooLong), response_load_of_not_fits tooLong⟩

/-! ## `reset` -/

/-- Settles O52: `reset` reads nothing but the parameter and the model's own two fields. -/
theorem resetEventRestoresTheResetState : Obligations.ResetEventRestoresTheResetState := by
  unfold Obligations.ResetEventRestoresTheResetState
  intro s
  exact ⟨s.doReset, rfl, rfl, rfl, rfl, rfl, rfl⟩

/-- Settles O53: the accessors read the constant vectors of the reset state, and memory its reset bytes. -/
theorem resetStateHoldsTheStatedValues : Obligations.ResetStateHoldsTheStatedValues := by
  unfold Obligations.ResetStateHoldsTheStatedValues
  refine ⟨rfl, fun f => ⟨fun x => ?_, rfl, rfl, rfl, fun k => ?_, resetByte_font f, resetByte_zero f, dispGet_dispClear,
    rfl, rfl, fun k => ?_, rfl, rfl, rfl, rfl, rfl⟩⟩
  · exact Vector.getElem_replicate x.isLt
  · exact Vector.getElem_replicate k.isLt
  · exact Vector.getElem_replicate k.isLt

/-! ## The states in which no cycle runs -/

/-- A `cpu_tick` without a cycle answers `ok` (R80, D8). -/
theorem response_cpuTick_of_rests {s : State} (rests : s.fsm = .awaitingKey ∨ s.fsm = .halted) :
    response .cpuTick s = .ok := by
  rcases rests with fsm | fsm <;> simp only [response, cpuTickResponse, fsm]

/-- Settles O11: only `cpu_tick` looks whether a cycle runs, and `set_key` whether a key is awaited. -/
theorem tickOutsideRunningChangesNothing : Obligations.TickOutsideRunningChangesNothing := by
  unfold Obligations.TickOutsideRunningChangesNothing
  intro s rests
  refine ⟨cpuTick_of_rests rests, response_cpuTick_of_rests rests,
    ⟨s.timerTick, rfl, toNat_timerDec s.dt, toNat_timerDec s.st⟩, fun k p => ?_, s.doReset, rfl, rfl⟩
  obtain ⟨t, performed, latch, -, -, wakes, stays⟩ := setKeyLatchesAndEndsTheWait k p s
  refine ⟨t, performed, latch, fun running => ?_, fun ends => (wakes ends).2.1⟩
  by_contra notEnds
  rw [(stays notEnds).1] at running
  rcases rests with fsm | fsm <;> cases fsm.symm.trans running

/-- In `Halted` every event but `reset` keeps `fsm` and the latched fault: none runs a cycle or ends a wait. -/
theorem halted_of_perform {e : Event} {s t : State} (halted : s.fsm = .halted) (h : perform e s = .next t)
    (notReset : e ≠ .reset) : t.fsm = .halted ∧ t.faultCause = s.faultCause ∧ t.faultInfo = s.faultInfo := by
  cases e
  case cpuTick =>
    cases (cpuTick_of_rests (.inr halted)).symm.trans h
    exact ⟨halted, rfl, rfl⟩
  case setKey k p =>
    cases h
    rw [setKeyEvent_of_not_wakes (by simp [halted])]
    exact ⟨halted, rfl, rfl⟩
  case load bytes =>
    cases h
    by_cases fits : bytes.length ≤ 0xE00
    · rw [loadRom_of_fits fits]
      exact ⟨halted, rfl, rfl⟩
    · rw [loadRom_of_not_fits (by omega)]
      exact ⟨halted, rfl, rfl⟩
  case reset => exact absurd rfl notReset
  case timerTick | ackDraw => cases h; exact ⟨halted, rfl, rfl⟩

/-- Settles O54: `halted_of_perform`, and the reset bytes above the font region are 0. -/
theorem onlyResetLeavesHalted : Obligations.OnlyResetLeavesHalted := by
  unfold Obligations.OnlyResetLeavesHalted
  intro e s t halted h
  refine ⟨halted_of_perform halted h, ?_⟩
  rintro rfl
  cases h
  refine ⟨rfl, rfl, fun a program => ?_⟩
  rw [doReset_byteAt, resetByte_zero _ _ (by omega)]

end Sys2Proof.Proofs
end

section
/-! A cycle and an event that touches other state commute (spec/60_exceptions.md R181, D24). The three events are
updates of the timers, the key latches and the draw-flag; a cycle that neither reads nor writes what such an update
changes runs alike before and after it. -/

namespace Sys2Proof.Proofs

open Sys2Proof Sys2Proof.Machine

/-- An update of the timers, the key latches and the draw-flag, each from its own value. -/
structure HostUpdate where
  timer : Byte → Byte := id
  keys : Vector Bool 16 → Vector Bool 16 := id
  drawFlag : Bool → Bool := id

/-- The update performed. -/
def HostUpdate.apply (u : HostUpdate) (s : State) : State :=
  { s with dt := u.timer s.dt, st := u.timer s.st, key := u.keys s.key, drawFlag := u.drawFlag s.drawFlag }

/-- `i` neither reads nor writes what `u` changes. -/
structure Unrelated (i : Instr) (u : HostUpdate) : Prop where
  timer : u.timer = id ∨ (¬ (∃ x, i = .ldVxDT x) ∧ ¬ (∃ x, i = .ldDTVx x) ∧ ¬ ∃ x, i = .ldSTVx x)
  keys : u.keys = id ∨ (¬ (∃ x, i = .skp x) ∧ ¬ ∃ x, i = .sknp x)
  drawFlag : u.drawFlag = id ∨ (i ≠ .cls ∧ ¬ ∃ x y n, i = .drw x y n)

/-! ## The shared operations run alike -/

theorem HostUpdate.apply_pc (u : HostUpdate) (s : State) : (u.apply s).pc = s.pc :=
  rfl

theorem HostUpdate.apply_effAddr (u : HostUpdate) (s : State) (k : Nat) : (u.apply s).effAddr k = s.effAddr k :=
  rfl

theorem skipIf_apply (u : HostUpdate) (s : State) (c : Bool) : (u.apply s).skipIf c = u.apply (s.skipIf c) := by
  rw [State.skipIf_eq, State.skipIf_eq]
  rfl

theorem readBytes_apply (u : HostUpdate) (s : State) (a n : Nat) : (u.apply s).readBytes a n = s.readBytes a n := by
  induction n generalizing a with
  | zero => rfl
  | succ n ih =>
    simp only [State.readBytes, ih]
    rfl

theorem storeBytes_apply (u : HostUpdate) (s : State) (a : Nat) (bs : List Byte) :
    (u.apply s).storeBytes a bs = (s.storeBytes a bs).map u.apply := by
  induction bs generalizing s a with
  | nil => rfl
  | cons b bs ih =>
    simp only [State.storeBytes, State.memWrite_eq]
    by_cases inRam : 0x200 ≤ a ∧ a ≤ 0xFFF
    · rw [if_pos inRam, if_pos inRam]
      exact ih (s.setMem (Memory.write s.fontTable s.mem a b)) (a + 1)
    · rw [if_neg inRam, if_neg inRam]
      rfl

theorem setVs_apply (u : HostUpdate) (s : State) (k : Nat) (bs : List Byte) :
    (u.apply s).setVs k bs = u.apply (s.setVs k bs) := by
  induction bs generalizing s k with
  | nil => rfl
  | cons b bs ih => exact ih (s.setV (BitVec.ofNat 4 k) b) (k + 1)

theorem push_apply (u : HostUpdate) (s : State) (a : Word) : (u.apply s).push a = (s.push a).map u.apply := by
  by_cases room : s.sp.val < 16
  · rw [push_eq s a room, push_eq (u.apply s) a room]
    rfl
  · have full : s.sp.val = 16 := by omega
    rw [State.push_error s a full, State.push_error (u.apply s) a full]
    rfl

theorem pop_apply (u : HostUpdate) (s : State) : (u.apply s).pop = (s.pop).map (Prod.map id u.apply) := by
  by_cases empty : s.sp.val = 0
  · rw [State.pop_error s empty, State.pop_error (u.apply s) empty]
    rfl
  · rw [pop_eq s (by omega), pop_eq (u.apply s) (by simp only [HostUpdate.apply]; omega)]
    rfl

/-- A cycle runs alike where its Execute step does: Advance and fault entry touch none of these fields. -/
theorem runCycle_apply {u : HostUpdate} {s t : State} {f : State → Except CycleFault State}
    (alike : f (u.apply s.beginCycle) = (f s.beginCycle).map u.apply) (h : runCycle s f = .next t) :
    runCycle (u.apply s) f = .next (u.apply t) := by
  rcases runCycle_cases s f with ⟨t', executed, runs⟩ | ⟨e, executed, runs⟩
  all_goals
    cases runs.symm.trans h
    rw [executed] at alike
  · exact runCycle_ok (u.apply s) _ f alike
  · exact runCycle_error (u.apply s) e f alike

/-! ## Every unrelated instruction runs alike -/

theorem exec_apply {i : Instr} {u : HostUpdate} (unrelated : Unrelated i u) {s t : State} (h : exec i s = .next t) :
    exec i (u.apply s) = .next (u.apply t) := by
  obtain ⟨timer, keys, drawFlag⟩ := u
  obtain ⟨noTimer, noKeys, noDrawing⟩ := unrelated
  cases i
  all_goals
    rw [exec] at h ⊢
    refine runCycle_apply ?_ h
  case seImm | sneImm | seReg | sneReg => exact congrArg Except.ok (skipIf_apply _ _ _)
  case skp | sknp =>
    obtain rfl := noKeys.resolve_right (by simp)
    exact congrArg Except.ok (skipIf_apply _ _ _)
  case ldVxDT | ldDTVx | ldSTVx =>
    obtain rfl := noTimer.resolve_right (by simp)
    rfl
  case cls =>
    obtain rfl := noDrawing.resolve_right (by simp)
    rfl
  case drw =>
    obtain rfl := noDrawing.resolve_right (by simp)
    simp only [readBytes_apply, HostUpdate.apply_effAddr]
    cases s.beginCycle.readBytes _ _ <;> rfl
  case ldVxI =>
    simp only [readBytes_apply, HostUpdate.apply_effAddr, setVs_apply]
    cases s.beginCycle.readBytes _ _ <;> rfl
  case call =>
    simp only [push_apply, HostUpdate.apply_pc]
    cases s.beginCycle.push _ <;> rfl
  case ret =>
    simp only [pop_apply]
    cases s.beginCycle.pop <;> rfl
  case ldB | ldIVx => exact storeBytes_apply _ _ _ _
  all_goals rfl

/-! ## The three events as updates -/

/-- `timer_tick` (R185). -/
def timerUpdate : HostUpdate := { timer := timerDec }
/-- The latch of `set_key` (R188). -/
def keyUpdate (k : Nibble) (p : Bool) : HostUpdate := { keys := fun key => key.set k.toNat p }
/-- `ack_draw` (R191). -/
def ackUpdate : HostUpdate := { drawFlag := fun _ => false }

theorem timerTick_eq_apply (s : State) : s.timerTick = timerUpdate.apply s :=
  rfl

theorem ackDraw_eq_apply (s : State) : s.ackDraw = ackUpdate.apply s :=
  rfl

/-- While no key is awaited, `set_key` is the latch alone. -/
theorem setKeyEvent_eq_apply {s : State} (notAwaiting : s.fsm ≠ .awaitingKey) (k : Nibble) (p : Bool) :
    s.setKeyEvent k p = (keyUpdate k p).apply s :=
  setKeyEvent_of_not_wakes (fun wakes => notAwaiting wakes.1) k

/-- Only LD Vx, K leaves a key awaited. -/
theorem fsm_ne_awaitingKey {i : Instr} {s t : State} (notWait : ¬ ∃ x, i = .ldVxK x) (h : exec i s = .next t) :
    t.fsm ≠ .awaitingKey := by
  rcases exec_cases i s t h with ⟨e, rfl, -⟩ | completed
  · nofun
  · rcases fsm_of_completes completed with ⟨-, waits⟩ | ⟨running, -⟩
    · exact absurd waits notWait
    · rw [running]
      nofun

/-- Settles O55: each event is an update unrelated to the instructions R181 allows. -/
theorem cycleCommutesWithUnrelatedEvents : Obligations.CycleCommutesWithUnrelatedEvents := by
  unfold Obligations.CycleCommutesWithUnrelatedEvents
  intro i s t h
  refine ⟨fun noTimer => ?_, fun ⟨noSkp, noSknp, notWait, notAwaiting⟩ k p => ?_, fun notDrawing => ?_⟩
  · rw [timerTick_eq_apply, timerTick_eq_apply]
    exact exec_apply ⟨.inr noTimer, .inl rfl, .inl rfl⟩ h
  · rw [setKeyEvent_eq_apply notAwaiting, setKeyEvent_eq_apply (fsm_ne_awaitingKey notWait h)]
    exact exec_apply ⟨.inl rfl, .inr ⟨noSkp, noSknp⟩, .inl rfl⟩ h
  · rw [ackDraw_eq_apply, ackDraw_eq_apply]
    exact exec_apply ⟨.inl rfl, .inl rfl, .inr notDrawing⟩ h

end Sys2Proof.Proofs
end
